-- ==== Sys2Proof/Word.lean ====
section
/-! DEFINITION. The word types of the ACLINT: register contents, byte offsets inside a region and
hart indices, each a bit vector because software (or the offset formats of 30_encoding.md R81) sees
it as bits. Bit 0 is the least significant bit (00_scope.md R11). -/

namespace Sys2Proof

/-- Contents of MTIME and MTIMECMP: 64 bits, unsigned (R11, R21, R22). -/
abbrev Word64 := BitVec 64

/-- Contents of MSIP and SETSSIP as the bus sees them, and each half of a 64-bit register: 32 bits. -/
abbrev Word32 := BitVec 32

/-- A byte offset from the base of a region, written as the 16 bits `off[15:0]` (R81). -/
abbrev Offset := BitVec 16

/-- A device's zero-based hart index. Both offset formats give it exactly 12 bits, `off[14:3]` or
`off[13:2]` (R81, R83); the value 4095 names no register (R8). -/
abbrev HartIndex := BitVec 12

end Sys2Proof
end

