-- ==== Sys2Proof/Config.lean ====
section
/-! DEFINITION. The configuration record `cfg` of 00_scope.md R9: everything the source leaves to
the platform, as plain data, the free value of every draw and each hart's initial SSIP (the free value of
the order of events, `Config.freeEvent`, stands beside `Event` in Syntax.lean). No step writes the configuration. -/

namespace Sys2Proof

/-- A run of consecutive hart indices mapped to consecutive platform harts: the next `count` indices
of the device stand for the harts `first`, `first + 1`, … . A list of runs gives the map `d.hart` of
R9; any map is a list of runs of one. -/
structure HartRun where
  first : Nat
  count : Nat
  deriving DecidableEq, Repr

/-- An MTIMER device (R9, R52, R100): its harts, its two independent base addresses, and which
physical MTIME register it uses (R103: several devices may name one cell). -/
structure Mtimer where
  harts        : List HartRun
  mtimeBase    : Nat
  mtimecmpBase : Nat
  mtimeCell    : Nat
  deriving DecidableEq, Repr

/-- An MSWI or an SSWI device (R9, R53, R54): its harts and its base address. -/
structure SwiDevice where
  harts : List HartRun
  base  : Nat
  deriving DecidableEq, Repr

/-- A device of the platform, by kind and place in the configuration's list. -/
inductive DeviceId where
  | mtimer (t : Nat)
  | mswi (m : Nat)
  | sswi (s : Nat)
  deriving DecidableEq, Repr

/-- `cfg.bad_access` (R9, R64): what an access the source does not define does. -/
inductive BadAccess where
  | refuse
  | fault
  | ignore
  deriving DecidableEq, Repr

/-- `cfg.mtime_wrap` (R9, R107): what a tick does at the top of the range. -/
inductive MtimeWrap where
  | wrap
  | stuck
  deriving DecidableEq, Repr

/-- The configuration record (R9). `denied` lists the pairs on which the predicate
`cfg.may_access(master, device)` is false (R183): a platform has finitely many masters and devices.
`refFreqHz` holds whole hertz only, where R9 says "positive number" (DESIGN CHOICE, log 27). -/
structure Config where
  mtimers      : List Mtimer
  mswis        : List SwiDevice
  sswis        : List SwiDevice
  refFreqHz    : Nat
  halfAccess64 : Bool
  badAccess    : BadAccess
  mtimeWrap    : MtimeWrap
  denied       : List (Nat × DeviceId)
  deriving DecidableEq, Repr

/-- THE FREE VALUE (a "draw", R14): nothing constrains it. A step that needs a draw takes the value
at the state's counter `draws` and advances the counter, so every draw is a fresh one (log 3). -/
opaque Config.freeNat : Nat → Nat

/-- THE FREE VALUE of a hart's SSIP at the start of the run (U21, N14; log 9): one bit for each hart, which
nothing constrains and which stays the same for the whole run. -/
opaque Config.initialSsip : Nat → Bool

/-- The hart map in which index `i` stands for hart `first + i`, for `n` harts. -/
def HartRun.block (first n : Nat) : List HartRun := [{ first := first, count := n }]

/-- The CLINT-compatible configuration for a CLINT at base `B` with `n` harts (R57, R58): one MSWI at
`B`, one MTIMER with its compare registers at `B + 0x4000` and MTIME at `B + 0xBFF8`, no SSWI. Which of
the two MTIMER regions comes first is from general knowledge (G7). The open parameters have R9's
defaults. -/
def Config.clint (B n : Nat) : Config where
  mtimers      := [{ harts := HartRun.block 0 n, mtimeBase := B + 0xBFF8,
                     mtimecmpBase := B + 0x4000, mtimeCell := 0 }]
  mswis        := [{ harts := HartRun.block 0 n, base := B }]
  sswis        := []
  refFreqHz    := 10000000
  halfAccess64 := false
  badAccess    := .refuse
  mtimeWrap    := .wrap
  denied       := []

/-- The configuration State.reset carries (DESIGN CHOICE, unsafe, log 1): the CLINT-compatible layout
at 0x0200_0000 and one SSWI at 0x02F0_0000, the example bases of 95_test_vectors.md section 4, with
4095 harts, the most a device serves (R8), so that every hart index has its register. Statements
quantify over every configuration. -/
def Config.standard : Config :=
  { Config.clint 0x02000000 4095 with
    sswis := [{ harts := HartRun.block 0 4095, base := 0x02F00000 }] }

end Sys2Proof
end

