-- ==== Sys2Proof/Syntax.lean ====
section
/-! DEFINITION. What a bus master can send, what it is decoded to, and what else can happen: the
operation descriptor of 30_encoding.md R80, the ten operations of R86 as the one inductive `Instr`,
and the events of the model's agenda (20_memory.md R70, 60_exceptions.md R172 to R177). -/

namespace Sys2Proof

/-- The direction of a bus operation: `R` (load) or `W` (store) (R80). -/
inductive Dir where
  | load
  | store
  deriving DecidableEq, Repr

/-- The accesses that are neither a plain load nor a plain store (R67). -/
inductive SpecialKind where
  | amo
  | loadReserved
  | storeConditional
  | cacheBlock
  | instructionFetch
  deriving DecidableEq, Repr

/-- What a bus master asks for: `MemRead(addr, n)`, `MemWrite(addr, n, v)` (R13) or one of R67's
accesses. `n` is the size in bytes, `v` the store data as an unsigned integer of `8 n` bits (R11). -/
inductive BusOp where
  | load (n : Nat)
  | store (n : Nat) (v : Nat)
  | special (k : SpecialKind) (n : Nat)
  deriving DecidableEq, Repr

/-- The register block an access falls in, with the place of its device in the configuration's list
(R51 to R54, R80). -/
inductive Region where
  | mtime (t : Nat)
  | mtimecmp (t : Nat)
  | mswi (m : Nat)
  | sswi (s : Nat)
  deriving DecidableEq, Repr

/-- The operation descriptor `(dev, region, dir, off, n, v)` of R80: `region` carries `dev`, `op`
carries `dir`, `n` and `v`. -/
structure Descriptor where
  region : Region
  off    : Offset
  op     : BusOp
  deriving DecidableEq, Repr

/-- One access of a bus master to a physical address (R13, R50). -/
structure BusAccess where
  master : Nat
  addr   : Nat
  op     : BusOp
  deriving DecidableEq, Repr

/-- How much of a 64-bit register an operation reads: all 8 bytes (R60), or one 4-byte half, which
`cfg.half_access_64` admits (R62, R82). -/
inductive Lane where
  | full
  | low
  | high
  deriving DecidableEq, Repr

/-- The data of a write to a 64-bit register: 64 bits, or the 32 bits of one half (R62, R84). -/
inductive WriteData where
  | full (v : Word64)
  | low (v : Word32)
  | high (v : Word32)
  deriving DecidableEq, Repr

/-- An access to a RESERVED word: a read, or a write of 32 bits (R86 rows 5 and 8, "R or W"). -/
inductive ReservedAccess where
  | read
  | write (v : Word32)
  deriving DecidableEq, Repr

/-- THE TEN BUS OPERATIONS (R86), one constructor per row of spec/opcode_table.json. `t`, `m`, `s` are
the device's place in the configuration's list of its kind, `i` the hart index, `v` the data. -/
inductive Instr where
  | mtimeR (t : Nat) (lane : Lane)
  | mtimeW (t : Nat) (w : WriteData)
  | mtimecmpR (t : Nat) (i : HartIndex) (lane : Lane)
  | mtimecmpW (t : Nat) (i : HartIndex) (w : WriteData)
  | mswiReserved (m : Nat) (a : ReservedAccess)
  | msipR (m : Nat) (i : HartIndex)
  | msipW (m : Nat) (i : HartIndex) (v : Word32)
  | sswiReserved (d : Nat) (a : ReservedAccess)
  | setssipR (d : Nat) (i : HartIndex)
  | setssipW (d : Nat) (i : HartIndex) (v : Word32)
  deriving DecidableEq, Repr

/-- Why an access to a region is not one the source defines; the outcome of each is R64's. -/
inductive BadReason where
  /-- the offset is no multiple of the size (R61) -/
  | misaligned
  /-- a 4-byte half of a 64-bit register while `cfg.half_access_64` is false (R62) -/
  | halfAccessOff
  /-- an aligned access of a size the register does not have (R63) -/
  | wrongSize
  /-- the slot of a hart index the device does not serve (R65), in any part of it (log 26) -/
  | unconnected
  /-- a RESERVED word (R66), accessed whole (log 26) -/
  | reserved
  /-- neither a plain load nor a plain store (R67) -/
  | notPlain
  /-- an offset at or above the region's size: no located access has one (R80) -/
  | outsideRegion
  deriving DecidableEq, Repr

/-- What can happen next (R70): an access of a bus master; a step of a device's own; or a step of a
hart that the devices meet at its `mip` bits (60_exceptions.md R172 to R177). -/
inductive Event where
  /-- a bus master's access reaches the bus -/
  | bus (a : BusAccess)
  /-- `TICK(c)` of the MTIME cell `c` (R106) -/
  | tick (c : Nat)
  /-- `DELIVER(s, i)` of SSWI `d`, hart index `i` (R157) -/
  | deliver (d : Nat) (i : HartIndex)
  /-- hart `h` observes its bits MTIP, MSIP and SSIP (R172, R175, R176) -/
  | sampleMip (h : Nat)
  /-- SSIP of hart `h` is set or cleared, and not by a delivery: by software in the hart's own CSR (R159,
  R176), or by whatever else of the platform may write it, which N22 says not to exclude (DESIGN CHOICE,
  log 30) -/
  | writeSsip (h : Nat) (b : Bool)
  deriving DecidableEq, Repr, Inhabited

/-- THE SECOND FREE VALUE: what happens next of all that can, when the order is open (R70 item 5: every
interleaving is an execution). Nothing constrains it: any access of any master, any internal step, any
act of a hart, or an event that does nothing (log 5). -/
opaque Config.freeEvent : Nat → Event

end Sys2Proof
end

