-- ==== Sys2Proof/Machine/State.lean ====
section
/-! DEFINITION. The machine's state, all of it (10_state.md R20 to R40), its reasons to stop, and the
state after reset (70_reset_and_hazards.md R200). -/

namespace Sys2Proof.Machine

/-- A bank of registers as plain data: (key, value) pairs, keys strictly rising, no entry at the value
an unlisted key reads as. -/
abbrev Bank (α : Type) := List (Nat × α)

/-- A compare register: each 32-bit half a value or unknown (R22, C8). `none` is the spec's own mark
`unknown`, not a missing reset value. -/
structure Compare where
  lo : Option Word32
  hi : Option Word32
  deriving DecidableEq, Repr

/-- The compare register after reset: `unknown` (R31). -/
def Compare.unknown : Compare := { lo := none, hi := none }

/-- What the refusal mark names (R40, R64): the access and why it was refused. -/
structure RefusedAccess where
  master : Nat
  reason : BadReason
  desc   : Descriptor
  deriving DecidableEq, Repr

/-- `AccessFault(addr, dir)`: the address and the direction and nothing else (R64, R170). -/
structure AccessFault where
  addr : Nat
  dir  : Dir
  deriving DecidableEq, Repr

/-- What a bus operation answers its master (00_scope.md R14, R64, R183). -/
inductive Response where
  /-- a read's 64-bit value -/
  | data64 (v : Word64)
  /-- a read's 32-bit value -/
  | data32 (v : Word32)
  /-- an ignored bad read: the draw, an `n`-byte value (R64) -/
  | undefinedData (n : Nat) (v : Nat)
  /-- a write was taken -/
  | ack
  /-- the access was refused: it has no meaning (R64) -/
  | refused
  /-- the access raised AccessFault to its master (R64) -/
  | accessFault (f : AccessFault)
  /-- the platform keeps the master from the device: the access did not reach it (R183) -/
  | blocked
  /-- the address lies in no ACLINT region: not an ACLINT operation (R80) -/
  | notAclint
  deriving DecidableEq, Repr

/-- What a hart saw at its `mip` bits (R172, R175, R176). A bit is `none` where no device of the kind is
connected to the hart, so that the ACLINT drives nothing into it (R10). -/
structure MipView where
  hart : Nat
  mtip : Option Bool
  msip : Option Bool
  ssip : Bool
  deriving DecidableEq, Repr

/-- The state. The first seven fields after `cfg` are the spec's; `cfg` and the fields from `agenda` on
are the model's (INVENTORY.md, log 1, 3, 4, 5, 13). -/
structure State where
  /-- the configuration; no step writes it (R9) -/
  cfg        : Config
  /-- MTIME, keyed by cell; unlisted: 0 (R21, R30) -/
  mtime      : Bank Word64
  /-- MTIMECMP, keyed by `slotKey`; unlisted: unknown (R22, R31) -/
  mtimecmp   : Bank Compare
  /-- MSIP bits, keyed by `slotKey`; unlisted: 0 (R23, R32) -/
  msip       : Bank Bool
  /-- edges in flight, keyed by `slotKey`; unlisted: 0 (R25, R33) -/
  inflight   : Bank Nat
  /-- the refusal mark (R40) -/
  refusalMark : Option RefusedAccess
  /-- the fault mark (R40) -/
  faultMark  : Option AccessFault
  /-- SSIP of each hart, keyed by hart; unlisted: not written since the run began, so still the hart's
  initial bit, `Config.initialSsip` (R176, U21, log 9) -/
  ssip       : Bank (Option Bool)
  /-- the events still to happen, in order (R70) -/
  agenda     : List Event
  /-- the bus master of the access being performed or last performed -/
  master     : Nat
  /-- the answer of the last bus operation -/
  resp       : Option Response
  /-- the last sample of a hart's `mip` bits -/
  mipView    : Option MipView
  /-- how many draws have been taken -/
  draws      : Nat
  /-- the fair scheduler's place in its rotation -/
  turn       : Nat
  /-- the events that may still come before the next owed step -/
  patience   : Nat
  deriving DecidableEq, Repr

/-- Why the machine stops with a fault. -/
inductive Fault where
  /-- Raised by a meaning whose instruction names a device the configuration does not have: a register
  at no address. No access decodes to such an instruction. Safe. -/
  | noSuchDevice
  deriving DecidableEq, Repr

/-- Why an instruction is refused. -/
inductive Refusal where
  /-- Raised by an arm of `exec` whose instruction has no meaning yet: by none here. Safe. -/
  | notModelled (mnemonic : String)
  deriving DecidableEq, Repr

/-- The outcome of a step of this machine. -/
abbrev Out := Host.Outcome State Fault Refusal

/-- The initial state of a run on a configuration (R34, R200): every MTIME 0, every MTIMECMP unknown,
every MSIP 0, nothing in flight, the marks clear. -/
def State.resetOf (cfg : Config) : State where
  cfg         := cfg
  mtime       := []
  mtimecmp    := []
  msip        := []
  inflight    := []
  refusalMark := none
  faultMark   := none
  ssip        := []
  agenda      := []
  master      := 0
  resp        := none
  mipView     := none
  draws       := 0
  turn        := 0
  patience    := 0

/-- The machine right after reset, on the configuration of log 1. -/
def State.reset : State := State.resetOf Config.standard

end Sys2Proof.Machine
end

