-- ==== Sys2Proof/Decode.lean ====
section
/-! DEFINITION. From a physical access to an operation: the hart maps, the regions of the address
map (20_memory.md R51 to R54), finding the region of an address (30_encoding.md R80), decoding a
descriptor (R81 to R86), and, written from the same tables, the encoder. -/

namespace Sys2Proof

/-! ### Hart maps (00_scope.md R9, 60_exceptions.md R186) -/

/-- `d.nharts`: how many harts the device serves. -/
def hartCount : List HartRun → Nat
  | [] => 0
  | r :: rs => r.count + hartCount rs

/-- `d.hart(i)`: the platform hart that hart index `i` stands for, if the device serves it. -/
def hartOf : List HartRun → Nat → Option Nat
  | [], _ => none
  | r :: rs, i => if i < r.count then some (r.first + i) else hartOf rs (i - r.count)

/-- The hart index a device gives to hart `h`, if it serves it: the map `d.hart` read backwards. -/
def hartIndexOf : List HartRun → Nat → Option Nat
  | [], _ => none
  | r :: rs, h =>
    if r.first ≤ h ∧ h < r.first + r.count then some (h - r.first)
    else (hartIndexOf rs h).map (r.count + ·)

/-! ### The address map -/

/-- The size of a region in bytes: the full table, whatever the number of harts (R52 to R54, D9). -/
def Region.size : Region → Nat
  | .mtime _ => 8
  | .mtimecmp _ => 0x7FF8
  | .mswi _ => 0x4000
  | .sswi _ => 0x4000

/-- The device a region belongs to. -/
def Region.device : Region → DeviceId
  | .mtime t => .mtimer t
  | .mtimecmp t => .mtimer t
  | .mswi m => .mswi m
  | .sswi s => .sswi s

/-- The base address of a region, if the configuration has its device. -/
def regionBase (cfg : Config) : Region → Option Nat
  | .mtime t => (cfg.mtimers[t]?).map (·.mtimeBase)
  | .mtimecmp t => (cfg.mtimers[t]?).map (·.mtimecmpBase)
  | .mswi m => (cfg.mswis[m]?).map (·.base)
  | .sswi s => (cfg.sswis[s]?).map (·.base)

/-- A region at its place in the physical address space. `cell` is the MTIME cell of an MTIME region
and `none` for the others: regions of one cell are one and the same (R10(d)). -/
structure Placed where
  region : Region
  base   : Nat
  cell   : Option Nat
  deriving DecidableEq, Repr

/-- The address lies in the region: `base <= addr < base + size` (R80). -/
def Placed.contains (p : Placed) (addr : Nat) : Bool :=
  decide (p.base ≤ addr ∧ addr < p.base + p.region.size)

/-- The MTIME region of the MTIMER at place `t` (R52(a)). -/
def placedMtime (e : Mtimer × Nat) : Placed :=
  { region := .mtime e.2, base := e.1.mtimeBase, cell := some e.1.mtimeCell }

/-- The MTIMECMP region of the MTIMER at place `t` (R52(b)). -/
def placedMtimecmp (e : Mtimer × Nat) : Placed :=
  { region := .mtimecmp e.2, base := e.1.mtimecmpBase, cell := none }

/-- The region of the MSWI at place `m` (R53). -/
def placedMswi (e : SwiDevice × Nat) : Placed :=
  { region := .mswi e.2, base := e.1.base, cell := none }

/-- The region of the SSWI at place `s` (R54). -/
def placedSswi (e : SwiDevice × Nat) : Placed :=
  { region := .sswi e.2, base := e.1.base, cell := none }

/-- Every region of the platform's ACLINT. An MTIMER with no harts has no MTIMECMP region (R52, R101). -/
def regions (cfg : Config) : List Placed :=
  cfg.mtimers.zipIdx.map placedMtime ++
  (cfg.mtimers.zipIdx.filter (fun e => decide (0 < hartCount e.1.harts))).map placedMtimecmp ++
  cfg.mswis.zipIdx.map placedMswi ++
  cfg.sswis.zipIdx.map placedSswi

/-- The region an address falls in and the offset inside it (R80). The regions of a well-formed
configuration are disjoint but for a shared MTIME, which is then found through the first device that
has it; an address in none gives `none`: no ACLINT operation. -/
def locate (cfg : Config) (addr : Nat) : Option (Region × Offset) :=
  ((regions cfg).find? (·.contains addr)).map fun p =>
    (p.region, BitVec.ofNat 16 (addr - p.base))

/-- `cfg.may_access(master, device)` (R9, R183). -/
def mayAccess (cfg : Config) (master : Nat) (d : DeviceId) : Bool :=
  !cfg.denied.contains (master, d)

/-! ### Decoding a descriptor (30_encoding.md R81 to R86) -/

/-- The size in bytes of an access. -/
def BusOp.bytes : BusOp → Nat
  | .load n => n
  | .store n _ => n
  | .special _ n => n

/-- The direction recorded for an access. For the accesses of R67, which R80 gives no direction, the
ones that can store count as stores (DESIGN CHOICE, log 8). -/
def BusOp.dir : BusOp → Dir
  | .load _ => .load
  | .store _ _ => .store
  | .special .loadReserved _ => .load
  | .special .instructionFetch _ => .load
  | .special .amo _ => .store
  | .special .storeConditional _ => .store
  | .special .cacheBlock _ => .store

/-- Which access size and low three offset bits name which part of a 64-bit register: 8 bytes at 0
(R60), 4 bytes at 0 the low half, 4 bytes at 4 the high half (R59, R62). -/
def laneAt (n : Nat) (low : BitVec 3) : Option Lane :=
  if n = 8 then (if low = 0#3 then some .full else none)
  else if n = 4 then
    (if low = 0#3 then some .low else if low = 4#3 then some .high else none)
  else none

/-- The name of a rejection of a plain access no row takes: misaligned (R61), else of a size the
register does not have (R63). At offset 0x3FFC of an MSWI or SSWI this is the name for every size but 4:
R66 ("any size") and R88 class the offset as reserved, R86 sends what matches no row to R61 or R63
(DESIGN CHOICE, log 26; R64's outcome either way). -/
def rejectPlain (n : Nat) (off : Offset) : BadReason :=
  if off.toNat % n ≠ 0 then .misaligned else .wrongSize

/-- The data of a write to the part `lane` of a 64-bit register (R84). -/
def writeDataAt (lane : Lane) (v : Nat) : WriteData :=
  match lane with
  | .full => .full (BitVec.ofNat 64 v)
  | .low => .low (BitVec.ofNat 32 v)
  | .high => .high (BitVec.ofNat 32 v)

/-- Format T (R81): bits 15:3 must be 0; the part of the register by size and bits 2:0. -/
def formatT (n : Nat) (off : Offset) : Option Lane :=
  if off &&& 0xFFF8#16 = 0#16 then laneAt n (off.extractLsb' 0 3) else none

/-- Format C (R81): bit 15 must be 0; `idx = off[14:3]` (R83); the part by size and bits 2:0. -/
def formatC (n : Nat) (off : Offset) : Option (HartIndex × Lane) :=
  if off &&& 0x8000#16 = 0#16 then
    (laneAt n (off.extractLsb' 0 3)).map fun l => (off.extractLsb' 3 12, l)
  else none

/-- What format I selects: the RESERVED word, or the register of a hart index. -/
inductive Slot where
  | reservedWord
  | register (i : HartIndex)
  deriving DecidableEq, Repr

/-- Format I (R81): 4 bytes, bits 15:14 and 1:0 must be 0, `idx = off[13:2]` (R83); offset 0x3FFC is
the RESERVED word and is tried first (R86). -/
def formatI (n : Nat) (off : Offset) : Option Slot :=
  if n ≠ 4 then none
  else if off = 0x3FFC#16 then some .reservedWord
  else if off &&& 0xC003#16 = 0#16 then some (.register (off.extractLsb' 2 12))
  else none

/-- A load (`R`) of `n` bytes at an offset of a region: rows 1, 3, 5, 6, 8, 9 of R86. -/
def decodeLoad (r : Region) (n : Nat) (off : Offset) : Option Instr :=
  match r with
  | .mtime t => (formatT n off).map fun l => .mtimeR t l
  | .mtimecmp t => (formatC n off).map fun p => .mtimecmpR t p.1 p.2
  | .mswi m => (formatI n off).map fun
    | .reservedWord => .mswiReserved m .read
    | .register i => .msipR m i
  | .sswi s => (formatI n off).map fun
    | .reservedWord => .sswiReserved s .read
    | .register i => .setssipR s i

/-- A store (`W`) of the `n`-byte value `v` at an offset of a region: rows 2, 4, 5, 7, 8, 10 of R86. -/
def decodeStore (r : Region) (n v : Nat) (off : Offset) : Option Instr :=
  match r with
  | .mtime t => (formatT n off).map fun l => .mtimeW t (writeDataAt l v)
  | .mtimecmp t => (formatC n off).map fun p => .mtimecmpW t p.1 (writeDataAt p.2 v)
  | .mswi m => (formatI n off).map fun
    | .reservedWord => .mswiReserved m (.write (BitVec.ofNat 32 v))
    | .register i => .msipW m i (BitVec.ofNat 32 v)
  | .sswi s => (formatI n off).map fun
    | .reservedWord => .sswiReserved s (.write (BitVec.ofNat 32 v))
    | .register i => .setssipW s i (BitVec.ofNat 32 v)

/-- Decoding a descriptor (R80, R86): an operation, or the reason the access is none of them. It is
total. Whether the index is served (R65) and half accesses are admitted (R62) is the operation's own
side condition and is checked by its meaning. -/
def decode (d : Descriptor) : Except BadReason Instr :=
  if d.region.size ≤ d.off.toNat then .error .outsideRegion
  else match d.op with
    | .load n =>
      match decodeLoad d.region n d.off with
      | some i => .ok i
      | none => .error (rejectPlain n d.off)
    | .store n v =>
      match decodeStore d.region n v d.off with
      | some i => .ok i
      | none => .error (rejectPlain n d.off)
    | .special _ _ => .error .notPlain

/-! ### The encoder, from the same tables -/

/-- The size in bytes of an access to a part of a 64-bit register (R60, R62). -/
def Lane.bytes : Lane → Nat
  | .full => 8
  | .low => 4
  | .high => 4

/-- The low three offset bits of a part of a 64-bit register (R59, R62). -/
def Lane.lowBits : Lane → BitVec 3
  | .full => 0#3
  | .low => 0#3
  | .high => 4#3

/-- The part of the register that write data fills. -/
def WriteData.lane : WriteData → Lane
  | .full _ => .full
  | .low _ => .low
  | .high _ => .high

/-- Write data as the unsigned integer on the bus (R11). -/
def WriteData.value : WriteData → Nat
  | .full v => v.toNat
  | .low v => v.toNat
  | .high v => v.toNat

/-- The bus operation of an access to a RESERVED word. -/
def ReservedAccess.op : ReservedAccess → BusOp
  | .read => .load 4
  | .write v => .store 4 v.toNat

/-- The offset of a part of MTIME, format T: zeros, then the low three bits. -/
def offsetT (l : Lane) : Offset := 0#13 ++ l.lowBits

/-- The offset of a part of MTIMECMP<i>, format C: `8 * i` and the low three bits. -/
def offsetC (i : HartIndex) (l : Lane) : Offset := 0#1 ++ i ++ l.lowBits

/-- The offset of MSIP<i> or SETSSIP<i>, format I: `4 * i`. -/
def offsetI (i : HartIndex) : Offset := 0#2 ++ i ++ 0#2

/-- The descriptor of an operation (R80, R86). -/
def encode : Instr → Descriptor
  | .mtimeR t l => ⟨.mtime t, offsetT l, .load l.bytes⟩
  | .mtimeW t w => ⟨.mtime t, offsetT w.lane, .store w.lane.bytes w.value⟩
  | .mtimecmpR t i l => ⟨.mtimecmp t, offsetC i l, .load l.bytes⟩
  | .mtimecmpW t i w => ⟨.mtimecmp t, offsetC i w.lane, .store w.lane.bytes w.value⟩
  | .mswiReserved m a => ⟨.mswi m, 0x3FFC#16, a.op⟩
  | .msipR m i => ⟨.mswi m, offsetI i, .load 4⟩
  | .msipW m i v => ⟨.mswi m, offsetI i, .store 4 v.toNat⟩
  | .sswiReserved s a => ⟨.sswi s, 0x3FFC#16, a.op⟩
  | .setssipR s i => ⟨.sswi s, offsetI i, .load 4⟩
  | .setssipW s i v => ⟨.sswi s, offsetI i, .store 4 v.toNat⟩

/-- The physical access that a descriptor stands for, issued by `master`: `base + off` (R80). A device
the configuration does not have counts as based at 0; no such descriptor comes from `locate`. -/
def Descriptor.addr (cfg : Config) (d : Descriptor) : Nat :=
  (regionBase cfg d.region).getD 0 + d.off.toNat

/-- The physical access of an operation. -/
def encodeAccess (cfg : Config) (master : Nat) (i : Instr) : BusAccess :=
  { master := master, addr := (encode i).addr cfg, op := (encode i).op }

/-! ### The operation table of R86 -/

/-- The four kinds of region, without the device. -/
inductive RegionKind where
  | mtime
  | mtimecmp
  | mswi
  | sswi
  deriving DecidableEq, Repr

/-- The kind of a region. -/
def Region.kind : Region → RegionKind
  | .mtime _ => .mtime
  | .mtimecmp _ => .mtimecmp
  | .mswi _ => .mswi
  | .sswi _ => .sswi

/-- The region of a kind that belongs to the first device of the configuration's list. -/
def RegionKind.firstRegion : RegionKind → Region
  | .mtime => .mtime 0
  | .mtimecmp => .mtimecmp 0
  | .mswi => .mswi 0
  | .sswi => .sswi 0

/-- One row of R86: `dir` is `none` for "R or W"; `mask` and `pattern` are over `off[15:0]`. -/
structure OpRow where
  mnemonic : String
  kind     : RegionKind
  dir      : Option Dir
  n        : Nat
  mask     : Offset
  pattern  : Offset
  deriving DecidableEq, Repr

/-- The ten rows of R86, in its order. -/
def opTable : List OpRow :=
  [ ⟨"MTIME.R", .mtime, some .load, 8, 0xFFFF#16, 0x0000#16⟩,
    ⟨"MTIME.W", .mtime, some .store, 8, 0xFFFF#16, 0x0000#16⟩,
    ⟨"MTIMECMP.R", .mtimecmp, some .load, 8, 0x8007#16, 0x0000#16⟩,
    ⟨"MTIMECMP.W", .mtimecmp, some .store, 8, 0x8007#16, 0x0000#16⟩,
    ⟨"MSWI.RESERVED", .mswi, none, 4, 0xFFFF#16, 0x3FFC#16⟩,
    ⟨"MSIP.R", .mswi, some .load, 4, 0xC003#16, 0x0000#16⟩,
    ⟨"MSIP.W", .mswi, some .store, 4, 0xC003#16, 0x0000#16⟩,
    ⟨"SSWI.RESERVED", .sswi, none, 4, 0xFFFF#16, 0x3FFC#16⟩,
    ⟨"SETSSIP.R", .sswi, some .load, 4, 0xC003#16, 0x0000#16⟩,
    ⟨"SETSSIP.W", .sswi, some .store, 4, 0xC003#16, 0x0000#16⟩ ]

/-- The row takes the offset: `off & mask = match`. -/
def OpRow.takes (r : OpRow) (off : Offset) : Bool := decide (off &&& r.mask = r.pattern)

/-- The row selects the plain access: region, direction, size and offset bits equal the row's (R86). -/
def OpRow.selects (r : OpRow) (k : RegionKind) (dir : Dir) (n : Nat) (off : Offset) : Bool :=
  decide (r.kind = k) && (r.dir == none || r.dir == some dir) && decide (r.n = n) && r.takes off

/-- The mnemonic of an operation's row. -/
def Instr.mnemonic : Instr → String
  | .mtimeR _ _ => "MTIME.R"
  | .mtimeW _ _ => "MTIME.W"
  | .mtimecmpR _ _ _ => "MTIMECMP.R"
  | .mtimecmpW _ _ _ => "MTIMECMP.W"
  | .mswiReserved _ _ => "MSWI.RESERVED"
  | .msipR _ _ => "MSIP.R"
  | .msipW _ _ _ => "MSIP.W"
  | .sswiReserved _ _ => "SSWI.RESERVED"
  | .setssipR _ _ => "SETSSIP.R"
  | .setssipW _ _ _ => "SETSSIP.W"

/-! ### The table's words

An opcode-table word is `off[15:0]` and nothing else: region, direction and size stand in the row, not
in the word (R86). Rows of different regions and directions have equal words, so a word alone does not
name a row; the first row in the table's order that takes it inside its region is read (DESIGN CHOICE,
log 2). -/

/-- The first row of R86, in its order, whose mask and match take the offset, if the offset lies in the
row's region. -/
def tableRow (off : Offset) : Option OpRow :=
  opTable.find? fun r => r.takes off && decide (off.toNat < r.kind.firstRegion.size)

/-- The plain access of a row, with store data 0 (the word holds no data). -/
def OpRow.op (r : OpRow) : BusOp :=
  match r.dir with
  | some .store => .store r.n 0
  | _ => .load r.n

/-- The descriptor a table word stands for: the access of its row at that offset of the first device. -/
def tableDescriptor (nbits w : Nat) : Option Descriptor :=
  let off : Offset := BitVec.ofNat 16 (w % 2 ^ nbits)
  (tableRow off).map fun r => ⟨r.kind.firstRegion, off, r.op⟩

/-- The operation the decoder reads from a table word of `nbits` bits. -/
def decodeTableWord (nbits w : Nat) : Option Instr :=
  match tableDescriptor nbits w with
  | none => none
  | some d => (decode d).toOption

end Sys2Proof
end

