-- ==== Sys2Proof/WellFormed.lean ====
section
/-! DEFINITION. Well-formed configurations (00_scope.md R10), bus operations and instructions, as
checks that can be run. -/

namespace Sys2Proof

/-- Two runs share no hart. -/
def HartRun.disjoint (a b : HartRun) : Bool :=
  decide (a.first + a.count ≤ b.first ∨ b.first + b.count ≤ a.first ∨ a.count = 0 ∨ b.count = 0)

/-- The runs share no hart: the maps they form are injective and disjoint (R10(a), R10(b)). -/
def hartsDisjoint (rs : List HartRun) : Bool :=
  decide (rs.Pairwise fun a b => a.disjoint b = true)

/-- Two regions of one well-formed configuration: MTIME regions of one cell coincide, any other two
share no address (R10(d)). -/
def Placed.compatible (p q : Placed) : Bool :=
  let apart := decide (p.base + p.region.size ≤ q.base ∨ q.base + q.region.size ≤ p.base)
  match p.cell, q.cell with
  | some c, some c' => if c = c' then decide (p.base = q.base) else apart
  | _, _ => apart

/-- A well-formed configuration: R10(a) and (b), (c) with R8, (d), (e), and a positive reference
frequency (R9). -/
def Config.wf (cfg : Config) : Bool :=
  hartsDisjoint (cfg.mtimers.flatMap (·.harts)) &&
  hartsDisjoint (cfg.mswis.flatMap (·.harts)) &&
  hartsDisjoint (cfg.sswis.flatMap (·.harts)) &&
  cfg.mtimers.all (fun d => decide (hartCount d.harts ≤ 4095)) &&
  cfg.mswis.all (fun d => decide (hartCount d.harts ≤ 4095)) &&
  cfg.sswis.all (fun d => decide (hartCount d.harts ≤ 4095)) &&
  decide ((regions cfg).Pairwise fun p q => p.compatible q = true) &&
  cfg.mtimers.all (fun d => decide (d.mtimeBase % 8 = 0 ∧ d.mtimecmpBase % 8 = 0)) &&
  cfg.mswis.all (fun d => decide (d.base % 4 = 0)) &&
  cfg.sswis.all (fun d => decide (d.base % 4 = 0)) &&
  decide (0 < cfg.refFreqHz)

/-- Store data fits the access: an `n`-byte value (R13). -/
def BusOp.wf : BusOp → Bool
  | .load _ => true
  | .store n v => decide (v < 2 ^ (8 * n))
  | .special _ _ => true

/-- The hart index names a register slot: at most 4094 (R8, R81). -/
def indexWf (i : HartIndex) : Bool := decide (i.toNat ≤ 4094)

/-- The operation has an encoding: its hart index, if it has one, is at most 4094 (R81). -/
def Instr.encodable : Instr → Bool
  | .mtimeR _ _ => true
  | .mtimeW _ _ => true
  | .mtimecmpR _ i _ => indexWf i
  | .mtimecmpW _ i _ => indexWf i
  | .mswiReserved _ _ => true
  | .msipR _ i => indexWf i
  | .msipW _ i _ => indexWf i
  | .sswiReserved _ _ => true
  | .setssipR _ i => indexWf i
  | .setssipW _ i _ => indexWf i

/-- The configuration has the operation's region: the device exists, and for MTIMECMP it serves at
least one hart (R52, R101). -/
def Config.hasRegion (cfg : Config) : Region → Bool
  | .mtime t => decide (t < cfg.mtimers.length)
  | .mtimecmp t => ((cfg.mtimers[t]?).map fun d => decide (0 < hartCount d.harts)).getD false
  | .mswi m => decide (m < cfg.mswis.length)
  | .sswi s => decide (s < cfg.sswis.length)

/-- A well-formed operation of a configuration: its region exists and it has an encoding. -/
def Instr.wf (cfg : Config) (i : Instr) : Bool :=
  cfg.hasRegion (encode i).region && i.encodable

end Sys2Proof
end

