-- ==== Sys2Proof/Machine/Ops.lean ====
section
/-! DEFINITION. The named operations over the register banks and the rest of the state: the one place
each register is read and written, draws, answers, and R64's outcome of an access the source does not
define. -/

namespace Sys2Proof.Machine

/-! ### Banks -/

/-- The value at a key; an unlisted key reads as `dflt`. -/
def Bank.read {α : Type} (dflt : α) : Bank α → Nat → α
  | [], _ => dflt
  | e :: b, k => if e.1 = k then e.2 else Bank.read dflt b k

/-- Put an entry before the first entry with a greater key. -/
def Bank.place {α : Type} (k : Nat) (v : α) : Bank α → Bank α
  | [] => [(k, v)]
  | e :: b => if k < e.1 then (k, v) :: e :: b else e :: Bank.place k v b

/-- Remove every entry at a key. -/
def Bank.erase {α : Type} (k : Nat) (b : Bank α) : Bank α := b.filter fun e => decide (e.1 ≠ k)

/-- Write a value at a key. Writing the value an unlisted key reads as removes the entry. -/
def Bank.write {α : Type} [DecidableEq α] (dflt : α) (b : Bank α) (k : Nat) (v : α) : Bank α :=
  if v = dflt then Bank.erase k b else Bank.place k v (Bank.erase k b)

/-- The canonical form: keys strictly rising, no entry at the default. -/
abbrev Bank.wf {α : Type} (dflt : α) (b : Bank α) : Prop :=
  b.Pairwise (fun e f => e.1 < f.1) ∧ ∀ e ∈ b, e.2 ≠ dflt

/-- The key of the register of hart index `i` in the device at place `d` of its list. -/
def slotKey (d : Nat) (i : HartIndex) : Nat := d * 4096 + i.toNat

/-! ### Registers -/

/-- MTIME of a cell (R21). -/
def State.getMtime (s : State) (c : Nat) : Word64 := Bank.read 0#64 s.mtime c

def State.setMtime (s : State) (c : Nat) (v : Word64) : State :=
  { s with mtime := Bank.write 0#64 s.mtime c v }

/-- MTIMECMP<i> of MTIMER `t` (R22). -/
def State.getCompare (s : State) (t : Nat) (i : HartIndex) : Compare :=
  Bank.read Compare.unknown s.mtimecmp (slotKey t i)

def State.setCompare (s : State) (t : Nat) (i : HartIndex) (c : Compare) : State :=
  { s with mtimecmp := Bank.write Compare.unknown s.mtimecmp (slotKey t i) c }

/-- The stored bit of MSIP<i> of MSWI `m` (R23). -/
def State.getMsip (s : State) (m : Nat) (i : HartIndex) : Bool :=
  Bank.read false s.msip (slotKey m i)

def State.setMsip (s : State) (m : Nat) (i : HartIndex) (b : Bool) : State :=
  { s with msip := Bank.write false s.msip (slotKey m i) b }

/-- Edges in flight to hart index `i` of SSWI `d` (R25). -/
def State.getInflight (s : State) (d : Nat) (i : HartIndex) : Nat :=
  Bank.read 0 s.inflight (slotKey d i)

def State.setInflight (s : State) (d : Nat) (i : HartIndex) (n : Nat) : State :=
  { s with inflight := Bank.write 0 s.inflight (slotKey d i) n }

/-- SSIP of hart `h` (R176): the bit last written, and before any write the hart's initial bit (U21). -/
def State.getSsip (s : State) (h : Nat) : Bool :=
  (Bank.read none s.ssip h).getD (Config.initialSsip h)

def State.setSsip (s : State) (h : Nat) (b : Bool) : State :=
  { s with ssip := Bank.write none s.ssip h (some b) }

/-! ### Draws and answers -/

/-- The next draw (R14). -/
def State.freeNat (s : State) : Nat := Config.freeNat s.draws

/-- The state after taking `n` draws. -/
def State.drawn (s : State) (n : Nat) : State := { s with draws := s.draws + n }

/-- The state after the bus operation's answer. -/
def State.respond (s : State) (r : Response) : State := { s with resp := some r }

/-! ### The outcome of an access the source does not define (20_memory.md R64) -/

/-- The access asks for a value: a load, or one of R67's that returns one (log 8). -/
def BusOp.returnsData : BusOp → Bool
  | .load _ => true
  | .store _ _ => false
  | .special .cacheBlock _ => false
  | .special _ _ => true

/-- `refuse`: the refusal mark is set and names the access, and no later access changes it (R40). -/
def refuseAccess (why : BadReason) (d : Descriptor) (s : State) : State :=
  { s with
    refusalMark := s.refusalMark.or (some { master := s.master, reason := why, desc := d })
    resp := some .refused }

/-- `fault`: AccessFault(addr, dir) to the bus master, and the fault mark (R40, R64, R170). -/
def faultAccess (d : Descriptor) (s : State) : State :=
  let f : AccessFault := { addr := d.addr s.cfg, dir := d.op.dir }
  { s with faultMark := s.faultMark.or (some f), resp := some (.accessFault f) }

/-- `ignore`: a write changes nothing; a read returns a draw, any `n`-byte value. -/
def ignoreAccess (d : Descriptor) (s : State) : State :=
  if BusOp.returnsData d.op then
    (s.drawn 1).respond (.undefinedData d.op.bytes (s.freeNat % 2 ^ (8 * d.op.bytes)))
  else s.respond .ack

/-- R64's outcome, chosen by `cfg.bad_access`. No device state changes. -/
def badAccess (why : BadReason) (d : Descriptor) (s : State) : State :=
  match s.cfg.badAccess with
  | .refuse => refuseAccess why d s
  | .fault => faultAccess d s
  | .ignore => ignoreAccess d s

/-- An operation with its side condition: its effect where nothing forbids it, R64's outcome where
`forbidden` names a reason. -/
def guarded (forbidden : Option BadReason) (i : Instr) (s effect : State) : Out :=
  match forbidden with
  | none => .next effect
  | some why => .next (badAccess why (encode i) s)

end Sys2Proof.Machine
end

