-- ==== Sys2Proof/Machine/Operands.lean ====
section
/-! DEFINITION. Operand forms: the parts of 64-bit registers (20_memory.md R60, R62, little-endian by
R59), the one-bit registers in their 32-bit words (30_encoding.md R84), and the side conditions on
index and part (R65, R62). -/

namespace Sys2Proof.Machine

/-- Bits 31:0. -/
def lowHalf (v : Word64) : Word32 := v.extractLsb' 0 32

/-- Bits 63:32. -/
def highHalf (v : Word64) : Word32 := v.extractLsb' 32 32

/-- A read of a part of a 64-bit value (R62, R84). -/
def readLane (l : Lane) (v : Word64) : Response :=
  match l with
  | .full => .data64 v
  | .low => .data32 (lowHalf v)
  | .high => .data32 (highHalf v)

/-- A read of a part of an unknown register: a draw of the part's width (R62, R113). -/
def drawLane (l : Lane) (free : Nat) : Response :=
  match l with
  | .full => .data64 (BitVec.ofNat 64 free)
  | .low => .data32 (BitVec.ofNat 32 free)
  | .high => .data32 (BitVec.ofNat 32 free)

/-- A write to a part of a 64-bit value (R62): `r <- r[63:32] ++ v` or `r <- v ++ r[31:0]`. -/
def writeLane (old : Word64) : WriteData → Word64
  | .full v => v
  | .low v => highHalf old ++ v
  | .high v => v ++ lowHalf old

/-- The value of a compare register: known once both halves are (R22). -/
def Compare.value (c : Compare) : Option Word64 :=
  match c.hi, c.lo with
  | some h, some l => some (h ++ l)
  | _, _ => none

/-- A compare register that holds a value. -/
def Compare.known (v : Word64) : Compare := { lo := some (lowHalf v), hi := some (highHalf v) }

/-- A write to a part of a compare register: a full write stores a definite value (R114), a half write
records the written half (R62). -/
def writeCompare (old : Compare) : WriteData → Compare
  | .full v => Compare.known v
  | .low v => { old with lo := some v }
  | .high v => { old with hi := some v }

/-- `v[0]`, the only bit of the data an MSIP or SETSSIP write uses (R84). -/
def warlBit (v : Word32) : Bool := v.getLsbD 0

/-- `zext_32(bit)`, what an MSIP read returns (R84, R133). -/
def zextBit (b : Bool) : Word32 := if b then 1#32 else 0#32

/-- Is the part admitted (R60, R62)? Halves only under `cfg.half_access_64`. -/
def laneForbidden (cfg : Config) (l : Lane) : Option BadReason :=
  match l with
  | .full => none
  | .low => if cfg.halfAccess64 then none else some .halfAccessOff
  | .high => if cfg.halfAccess64 then none else some .halfAccessOff

/-- Does the device serve the index (R65, R83)? -/
def indexForbidden (harts : List HartRun) (i : HartIndex) : Option BadReason :=
  if i.toNat < hartCount harts then none else some .unconnected

end Sys2Proof.Machine
end

