-- ==== Sys2Proof/Machine/Flags.lean ====
section
/-! DEFINITION. The wires into the harts, the device's analogue of flags: MTIP (40_mtimer.md R108 to
R110), MSIPW (41_mswi.md R135) and what a hart sees of them at its `mip` bits (60_exceptions.md R172,
R175; SSIP is no wire but the hart's own bit, R176). They are functions of the state: they change in the very step that changes their inputs. -/

namespace Sys2Proof.Machine

/-- `MTIP(t, i)`: `t.mtime >= t.mtimecmp[i]` as unsigned numbers (R108, R110); `none`, a draw, while the
compare register is unknown (R109) or the device does not exist. -/
def State.mtipWire (s : State) (t : Nat) (i : HartIndex) : Option Bool :=
  match s.cfg.mtimers[t]? with
  | none => none
  | some d => (s.getCompare t i).value.map fun v => decide (v.toNat ≤ (s.getMtime d.mtimeCell).toNat)

/-- `MSIPW(m, i)` (R27, R135). -/
def State.msipWire (s : State) (m : Nat) (i : HartIndex) : Bool := s.getMsip m i

/-- One bit of a draw. -/
def freeBit (free : Nat) : Bool := decide (free % 2 = 1)

/-- The device, by place, and the hart index that serve hart `h`, among devices given by their harts
from place `d` on (R171: each wire goes to exactly one hart; R186). -/
def findHart : List (List HartRun) → Nat → Nat → Option (Nat × HartIndex)
  | [], _, _ => none
  | rs :: rest, d, h =>
    match hartIndexOf rs h with
    | some i => some (d, BitVec.ofNat 12 i)
    | none => findHart rest (d + 1) h

/-- Bit MTIP of hart `h`: nothing where no MTIMER serves it, else its wire, where `free` stands for the
draw of R109 (R172). -/
def State.mtipOfHart (s : State) (h free : Nat) : Option Bool :=
  (findHart (s.cfg.mtimers.map (·.harts)) 0 h).map fun p =>
    (s.mtipWire p.1 p.2).getD (freeBit free)

/-- Bit MSIP of hart `h`: nothing where no MSWI serves it, else its wire (R175). -/
def State.msipOfHart (s : State) (h : Nat) : Option Bool :=
  (findHart (s.cfg.mswis.map (·.harts)) 0 h).map fun p => s.msipWire p.1 p.2

end Sys2Proof.Machine
end

