-- ==== Sys2Proof/Machine/Mswi.lean ====
section
/-! DEFINITION. The MSWI's operations (41_mswi.md): MSIP.R, MSIP.W, MSWI.RESERVED. -/

namespace Sys2Proof.Machine

/-- MSWI.RESERVED (R136): handed to R66, whose outcome is R64's. -/
def execMswiReserved (m : Nat) (a : ReservedAccess) (s : State) : Out :=
  match s.cfg.mswis[m]? with
  | none => .fault .noSuchDevice
  | some _ => .next (badAccess .reserved (encode (.mswiReserved m a)) s)

/-- MSIP.R (R133): answers the bit, zero-extended. -/
def execMsipR (m : Nat) (i : HartIndex) (s : State) : Out :=
  match s.cfg.mswis[m]? with
  | none => .fault .noSuchDevice
  | some d =>
    guarded (indexForbidden d.harts i) (.msipR m i) s
      (s.respond (.data32 (zextBit (s.getMsip m i))))

/-- MSIP.W (R134): `m.msip[i] <- v[0]`. -/
def execMsipW (m : Nat) (i : HartIndex) (v : Word32) (s : State) : Out :=
  match s.cfg.mswis[m]? with
  | none => .fault .noSuchDevice
  | some d =>
    guarded (indexForbidden d.harts i) (.msipW m i v) s
      ((s.setMsip m i (warlBit v)).respond .ack)

end Sys2Proof.Machine
end

