-- ==== Sys2Proof/Machine/Mtimer.lean ====
section
/-! DEFINITION. The MTIMER's operations (40_mtimer.md): MTIME.R, MTIME.W, MTIMECMP.R, MTIMECMP.W, and
its internal step TICK. The MTIP wires follow the state (Flags.lean). -/

namespace Sys2Proof.Machine

/-- MTIME.R (R111; halves R62): answers the counter of the device's cell. -/
def execMtimeR (t : Nat) (lane : Lane) (s : State) : Out :=
  match s.cfg.mtimers[t]? with
  | none => .fault .noSuchDevice
  | some d =>
    guarded (laneForbidden s.cfg lane) (.mtimeR t lane) s
      (s.respond (readLane lane (s.getMtime d.mtimeCell)))

/-- MTIME.W (R112; halves R62): stores the counter of the device's cell, for every device on it (R103). -/
def execMtimeW (t : Nat) (w : WriteData) (s : State) : Out :=
  match s.cfg.mtimers[t]? with
  | none => .fault .noSuchDevice
  | some d =>
    guarded (laneForbidden s.cfg w.lane) (.mtimeW t w) s
      ((s.setMtime d.mtimeCell (writeLane (s.getMtime d.mtimeCell) w)).respond .ack)

/-- What an MTIMECMP read answers: the value, or, while the register is unknown, a draw that leaves it
unknown (R113, R62). -/
def readCompare (t : Nat) (i : HartIndex) (lane : Lane) (s : State) : State :=
  match (s.getCompare t i).value with
  | some v => s.respond (readLane lane v)
  | none => (s.drawn 1).respond (drawLane lane s.freeNat)

/-- MTIMECMP.R (R113; halves R62; unconnected index R65). The index is checked before the part, so a
half of an unconnected slot is named unconnected, with half access on or off, where R65 asks for an
"otherwise admissible" access and R88 gives the slot no size (DESIGN CHOICE, log 26; R64's outcome
either way). -/
def execMtimecmpR (t : Nat) (i : HartIndex) (lane : Lane) (s : State) : Out :=
  match s.cfg.mtimers[t]? with
  | none => .fault .noSuchDevice
  | some d =>
    guarded ((indexForbidden d.harts i).or (laneForbidden s.cfg lane)) (.mtimecmpR t i lane) s
      (readCompare t i lane s)

/-- MTIMECMP.W (R114; halves R62; unconnected index R65, checked before the part as in MTIMECMP.R,
log 26). -/
def execMtimecmpW (t : Nat) (i : HartIndex) (w : WriteData) (s : State) : Out :=
  match s.cfg.mtimers[t]? with
  | none => .fault .noSuchDevice
  | some d =>
    guarded ((indexForbidden d.harts i).or (laneForbidden s.cfg w.lane)) (.mtimecmpW t i w) s
      ((s.setCompare t i (writeCompare (s.getCompare t i) w)).respond .ack)

/-- The physical MTIME registers of the configuration, each once (R21, R103). -/
def cells (cfg : Config) : List Nat :=
  (cfg.mtimers.map (·.mtimeCell)).foldr (fun c acc => if c ∈ acc then acc else c :: acc) []

/-- TICK is enabled: always, but at the top of the range under `stuck` (R106, R107). -/
def tickEnabled (s : State) (c : Nat) : Bool :=
  decide (c ∈ cells s.cfg) &&
    !(decide (s.cfg.mtimeWrap = .stuck) && decide (s.getMtime c = BitVec.allOnes 64))

/-- TICK(c) (R106): `c.mtime <- (c.mtime + 1) mod 2^64`. Where it is not enabled nothing happens. -/
def execTick (c : Nat) (s : State) : State :=
  if tickEnabled s c then s.setMtime c (s.getMtime c + 1#64) else s

end Sys2Proof.Machine
end

