-- ==== Sys2Proof/Machine/Sswi.lean ====
section
/-! DEFINITION. The SSWI's operations (42_sswi.md): SETSSIP.R, SETSSIP.W, SSWI.RESERVED, and its
internal step DELIVER. -/

namespace Sys2Proof.Machine

/-- SSWI.RESERVED (R160): handed to R66, whose outcome is R64's; never an edge. -/
def execSswiReserved (d : Nat) (a : ReservedAccess) (s : State) : Out :=
  match s.cfg.sswis[d]? with
  | none => .fault .noSuchDevice
  | some _ => .next (badAccess .reserved (encode (.sswiReserved d a)) s)

/-- SETSSIP.R (R154): answers 0, whatever is in flight. -/
def execSetssipR (d : Nat) (i : HartIndex) (s : State) : Out :=
  match s.cfg.sswis[d]? with
  | none => .fault .noSuchDevice
  | some dev =>
    guarded (indexForbidden dev.harts i) (.setssipR d i) s (s.respond (.data32 0#32))

/-- SETSSIP.W (R155): `v[0] = 1` sends one edge, `v[0] = 0` changes nothing. -/
def execSetssipW (d : Nat) (i : HartIndex) (v : Word32) (s : State) : Out :=
  match s.cfg.sswis[d]? with
  | none => .fault .noSuchDevice
  | some dev =>
    guarded (indexForbidden dev.harts i) (.setssipW d i v) s
      ((if warlBit v then s.setInflight d i (s.getInflight d i + 1) else s).respond .ack)

/-- How many edges one DELIVER takes: a draw in 1 .. n (R157, R158). -/
def edgesTaken (free n : Nat) : Nat := 1 + free % n

/-- DELIVER(d, i) (R157): enabled while edges are in flight to a hart the device serves; takes one or
more of them and sets the hart's SSIP. Where it is not enabled nothing happens. -/
def execDeliver (d : Nat) (i : HartIndex) (s : State) : State :=
  match s.cfg.sswis[d]? with
  | none => s
  | some dev =>
    match hartOf dev.harts i.toNat with
    | none => s
    | some h =>
      if s.getInflight d i = 0 then s
      else ((s.setInflight d i (s.getInflight d i - edgesTaken s.freeNat (s.getInflight d i))).setSsip
        h true).drawn 1

end Sys2Proof.Machine
end

