-- ==== Sys2Proof/Machine/Dispatch.lean ====
section
/-! DEFINITION. One arm per operation of 30_encoding.md R86. -/

namespace Sys2Proof.Machine

def exec (i : Instr) (s : State) : Host.Outcome State Fault Refusal :=
  match i with
  | .mtimeR t lane => Sys2Proof.Machine.execMtimeR t lane s
  | .mtimeW t w => Sys2Proof.Machine.execMtimeW t w s
  | .mtimecmpR t idx lane => Sys2Proof.Machine.execMtimecmpR t idx lane s
  | .mtimecmpW t idx w => Sys2Proof.Machine.execMtimecmpW t idx w s
  | .mswiReserved m a => Sys2Proof.Machine.execMswiReserved m a s
  | .msipR m idx => Sys2Proof.Machine.execMsipR m idx s
  | .msipW m idx v => Sys2Proof.Machine.execMsipW m idx v s
  | .sswiReserved d a => Sys2Proof.Machine.execSswiReserved d a s
  | .setssipR d idx => Sys2Proof.Machine.execSetssipR d idx s
  | .setssipW d idx v => Sys2Proof.Machine.execSetssipW d idx v s

end Sys2Proof.Machine
end

