-- ==== Sys2Proof/Machine/Agents.lean ====
section
/-! DEFINITION. What each agent does when it moves (00_scope.md section 6 item 1, 20_memory.md R70):
a bus master's access reaching its device, TICK, DELIVER, a hart meeting its `mip` bits, and the weakly
fair scheduler of the internal steps (40_mtimer.md R106, 42_sswi.md R157). -/

namespace Sys2Proof.Machine

/-- A located access, after the platform let it through: the operation it decodes to, or R64's outcome. -/
def performDescriptor (d : Descriptor) (s : State) : Out :=
  match decode d with
  | .ok i => exec i s
  | .error why => .next (badAccess why d s)

/-- An access of a bus master (R80, R183): one indivisible step (R69). -/
def performBus (a : BusAccess) (s : State) : Out :=
  match locate s.cfg a.addr with
  | none => .next ({ s with master := a.master }.respond .notAclint)
  | some (r, off) =>
    if mayAccess s.cfg a.master r.device then
      performDescriptor { region := r, off := off, op := a.op } { s with master := a.master }
    else .next ({ s with master := a.master }.respond .blocked)

/-- A hart observes its `mip` bits (R172, R175, R176); MTIP is a fresh draw while its compare register is
unknown (R26, R109), and SSIP is the hart's own bit. -/
def sampleMip (h : Nat) (s : State) : State :=
  { s with
    mipView := some
      { hart := h
        mtip := s.mtipOfHart h (Config.freeNat s.draws)
        msip := s.msipOfHart h
        ssip := s.getSsip h }
    draws := s.draws + 1 }

/-- One event happens. -/
def perform (e : Event) (s : State) : Out :=
  match e with
  | .bus a => performBus a s
  | .tick c => .next (execTick c s)
  | .deliver d i => .next (execDeliver d i s)
  | .sampleMip h => .next (sampleMip h s)
  | .writeSsip h b => .next (s.setSsip h b)

/-! ### The internal agents and their fair scheduler -/

/-- The `k`-th DELIVER agent of the SSWIs from place `d` on, one per hart index (R157). -/
def deliverAgent : List SwiDevice → Nat → Nat → Option Event
  | [], _, _ => none
  | dev :: rest, d, k =>
    if k < hartCount dev.harts then some (.deliver d (BitVec.ofNat 12 k))
    else deliverAgent rest (d + 1) (k - hartCount dev.harts)

/-- How many internal agents there are: one TICK per cell, one DELIVER per SSWI and hart index. -/
def agentCount (cfg : Config) : Nat :=
  (cells cfg).length + (cfg.sswis.map fun d => hartCount d.harts).sum

/-- The `k`-th internal agent. -/
def agentAt (cfg : Config) (k : Nat) : Option Event :=
  match (cells cfg)[k]? with
  | some c => some (.tick c)
  | none => deliverAgent cfg.sswis 0 (k - (cells cfg).length)

/-- An internal agent moves, if it is enabled. -/
def runAgent (e : Option Event) (s : State) : State :=
  match e with
  | some (.tick c) => execTick c s
  | some (.deliver d i) => execDeliver d i s
  | _ => s

/-- What happens with nothing on the agenda. While `patience` lasts, an arbitrary event comes onto the
agenda, for the next step to perform: an access of any master, a step of any internal agent, an act of
any hart; so every infinite interleaving is a run for some free values, one with bus accesses without
end too (R70 item 5). When `patience` is spent the internal agent whose turn it is moves, and the next
agent's wait is a draw. Every agent's turn comes after finitely many steps and nothing bounds how many:
weak fairness (R106, R157; DESIGN CHOICE, log 5). The spec has no such step where the agent whose turn it
is is not enabled (R107 under `stuck`, R157 with no edge; log 29) or the platform has no internal agent
(log 28); the model's moves `turn`, `patience` and `draws` only (DESIGN CHOICE). -/
def idle (s : State) : State :=
  match s.patience with
  | 0 =>
    runAgent (agentAt s.cfg (s.turn % agentCount s.cfg))
      { s with turn := s.turn + 1, patience := s.freeNat, draws := s.draws + 1 }
  | p + 1 =>
    { s with agenda := [Config.freeEvent s.draws], patience := p, draws := s.draws + 1 }

/-! ### Placing an operation on the bus -/

/-- A bus master that no entry of `cfg.may_access` keeps from any device. -/
def freeMaster (cfg : Config) : Nat := (cfg.denied.map (·.1)).foldr max 0 + 1

/-- Put the access of a descriptor at the head of the agenda. -/
def State.withDescriptor (s : State) (d : Descriptor) : State :=
  { s with agenda := .bus { master := freeMaster s.cfg, addr := d.addr s.cfg, op := d.op } :: s.agenda }

end Sys2Proof.Machine
end

