-- ==== Sys2Proof/Machine/Step.lean ====
section
/-! DEFINITION. One step: the next event of the agenda, or, when there is none, the fair scheduler, which
lets an arbitrary event come or moves the internal agent whose turn it is; and where a program's operation is placed for the next step to perform it. -/

namespace Sys2Proof.Machine

/-- One step of the platform's ACLINT (20_memory.md R70). -/
def step (s : State) : Host.Outcome State Fault Refusal :=
  match s.agenda with
  | [] => .next (idle s)
  | e :: rest => perform e { s with agenda := rest }

/-- `s` with the operation of a table word at the head of the agenda, sent by a master no
`cfg.may_access` entry stops to the register's physical address in the first device of its kind, so that
the next step performs it (log 2, log 4). A word no row takes is no operation and places nothing. -/
def State.withFetchWord (s : State) (nbits w : Nat) : State :=
  match tableDescriptor nbits w with
  | none => s
  | some d => s.withDescriptor d

end Sys2Proof.Machine
end

