-- ==== Sys2Proof/Safety.lean ====
section
/-! DEFINITION. What claims are stated in: the invariant of the state, runs without a mark, which
registers a configuration has, and R64's outcome as a relation. -/

namespace Sys2Proof

/-- A plain load or store (R67). -/
def BusOp.plain : BusOp → Bool
  | .load _ => true
  | .store _ _ => true
  | .special _ _ => false

/-- The operation is one of the four reads of R68. -/
def Instr.isRead : Instr → Bool
  | .mtimeR _ _ => true
  | .mtimecmpR _ _ _ => true
  | .msipR _ _ => true
  | .setssipR _ _ => true
  | .mtimeW _ _ => false
  | .mtimecmpW _ _ _ => false
  | .mswiReserved _ _ => false
  | .msipW _ _ _ => false
  | .sswiReserved _ _ => false
  | .setssipW _ _ _ => false

end Sys2Proof

namespace Sys2Proof.Machine

/-- Every register bank is in its canonical form. -/
abbrev State.Canonical (s : State) : Prop :=
  Bank.wf 0#64 s.mtime ∧ Bank.wf Compare.unknown s.mtimecmp ∧ Bank.wf false s.msip ∧
  Bank.wf 0 s.inflight ∧ Bank.wf none s.ssip

/-- The key is that of a register slot some device of the list serves: only registers with an index
below `nharts` exist (10_state.md R29, R22, R23, R25). -/
def served (devices : List (List HartRun)) (key : Nat) : Prop :=
  ∃ rs, devices[key / 4096]? = some rs ∧ key % 4096 < hartCount rs

/-- Nothing is stored for a register the configuration does not have. -/
def State.OnlyRealRegisters (s : State) : Prop :=
  (∀ e ∈ s.mtime, e.1 ∈ cells s.cfg) ∧
  (∀ e ∈ s.mtimecmp, served (s.cfg.mtimers.map (·.harts)) e.1) ∧
  (∀ e ∈ s.msip, served (s.cfg.mswis.map (·.harts)) e.1) ∧
  (∀ e ∈ s.inflight, served (s.cfg.sswis.map (·.harts)) e.1)

/-- Without half accesses a compare register is a whole value or wholly unknown (R22). -/
def State.WholeCompares (s : State) : Prop :=
  s.cfg.halfAccess64 = false → ∀ e ∈ s.mtimecmp, e.2.value ≠ none

/-- The invariant of the machine's state. -/
structure State.Inv (s : State) : Prop where
  canonical : s.Canonical
  real      : s.OnlyRealRegisters
  whole     : s.WholeCompares

/-- No refusal and no fault is recorded in the state (R40). -/
def State.Unmarked (s : State) : Prop := s.refusalMark = none ∧ s.faultMark = none

/-- No refusal and no fault is recorded in the run of `n` steps from the state: the premise R40 gives every
claim about such a run. -/
def State.UnmarkedFor (s : State) (n : Nat) : Prop :=
  ∀ (k : Nat) (t : State), k ≤ n → Host.Core.run core k s = .next t → t.Unmarked

/-- The same of the whole run from the state, however long. -/
def State.RunUnmarked (s : State) : Prop := ∀ n : Nat, s.UnmarkedFor n

/-- The state as its devices and harts hold it is the same: everything but the agenda, the bus's and the
model's own bookkeeping. -/
def State.SameDevices (s t : State) : Prop :=
  t.cfg = s.cfg ∧ t.mtime = s.mtime ∧ t.mtimecmp = s.mtimecmp ∧ t.msip = s.msip ∧
  t.inflight = s.inflight ∧ t.ssip = s.ssip

/-- R64's outcome of an access the source does not define, from `s` to `u`, by `cfg.bad_access`:
`refuse` sets the refusal mark, if it is clear, to name the access; `fault` answers AccessFault(addr,
dir) and sets the fault mark, if it is clear; `ignore` drops a write and answers a read with some value
of the access's size, drawn afresh. Nothing else changes in any of them. -/
def BadOutcome (why : BadReason) (d : Descriptor) (s u : State) : Prop :=
  match s.cfg.badAccess with
  | .refuse =>
    u = { s with
      refusalMark := if s.refusalMark = none then some ⟨s.master, why, d⟩ else s.refusalMark
      resp := some .refused }
  | .fault =>
    u = { s with
      faultMark := if s.faultMark = none then some ⟨d.addr s.cfg, d.op.dir⟩ else s.faultMark
      resp := some (.accessFault ⟨d.addr s.cfg, d.op.dir⟩) }
  | .ignore =>
    match d.op with
    | .load n => ∃ v < 2 ^ (8 * n),
        u = { s with resp := some (.undefinedData n v), draws := s.draws + 1 }
    | .store _ _ => u = { s with resp := some .ack }
    | .special .cacheBlock _ => u = { s with resp := some .ack }
    | .special _ n => ∃ v < 2 ^ (8 * n),
        u = { s with resp := some (.undefinedData n v), draws := s.draws + 1 }

/-- Hart maps of devices of one kind: injective, and no hart served by two of them (R10(a), (b)). -/
def DisjointHartMaps (devices : List (List HartRun)) : Prop :=
  ∀ (a b : Nat) (ra rb : List HartRun) (i j h : Nat),
    devices[a]? = some ra → devices[b]? = some rb →
    hartOf ra i = some h → hartOf rb j = some h → a = b ∧ i = j

/-- Finding the device and hart index of a hart is the hart map read backwards. -/
def LookupInvertsMaps (devices : List (List HartRun)) : Prop :=
  ∀ (h d : Nat) (i : HartIndex), findHart devices 0 h = some (d, i) ↔
    ∃ rs, devices[d]? = some rs ∧ hartOf rs i.toNat = some h

end Sys2Proof.Machine
end

