-- ==== Sys2Proof/Certificates/Slice0/Obligations.lean ====
section
/-! DEFINITION. What is to be proved of the model. Each statement's docstring names the rules of spec/
it comes from. A next state written `{ s with … }` says the whole frame: every field not named is as it
was. -/

open Sys2Proof Sys2Proof.Machine

/-! ### Decode and encode -/

/-- R81, R83, R84, R86, R62: no bit of an encoding is dropped, for every operation, index up to 4094,
part and data. -/
def Obligations.EncodedInstructionDecodes : Prop :=
  ∀ i : Instr, i.encodable = true → decode (encode i) = .ok i

/-- R80, R81, R86: each descriptor that decodes has one meaning: it is the encoding of what it decodes
to. -/
def Obligations.DecodedDescriptorIsItsEncoding : Prop :=
  ∀ (d : Descriptor) (i : Instr), d.op.wf = true → decode d = .ok i →
    i.encodable = true ∧ encode i = d

/-- R86: the decoder answers the first row, in the table's order, that selects the plain access; an
access no row selects is no operation, or a half of a 64-bit register (R62). -/
def Obligations.DecodeAgreesWithOperationTable : Prop :=
  ∀ d : Descriptor, d.op.plain = true → d.off.toNat < d.region.size →
    (∀ r, opTable.find? (fun r => r.selects d.region.kind d.op.dir d.op.bytes d.off) = some r →
      ∃ i, decode d = .ok i ∧ i.mnemonic = r.mnemonic) ∧
    (opTable.find? (fun r => r.selects d.region.kind d.op.dir d.op.bytes d.off) = none →
      (∃ why, decode d = .error why) ∨
      (d.op.bytes = 4 ∧ (d.region.kind = .mtime ∨ d.region.kind = .mtimecmp)))

/-- R61: a plain access whose offset is no multiple of its size is misaligned and no operation. That this
is the name at offset 0x3FFC of an MSWI or SSWI too is the model's choice (log 26). -/
def Obligations.MisalignedAccessIsNoOperation : Prop :=
  ∀ d : Descriptor, d.op.plain = true → d.off.toNat < d.region.size →
    d.off.toNat % d.op.bytes ≠ 0 → decode d = .error .misaligned

/-- R63: 1-byte and 2-byte accesses anywhere, accesses wider than 8 bytes, and 8-byte accesses in an
MSWI or SSWI region are, when not misaligned, of a wrong size and no operation. That this is the name at
offset 0x3FFC of an MSWI or SSWI too is the model's choice (log 26). -/
def Obligations.WrongSizeAccessIsNoOperation : Prop :=
  ∀ d : Descriptor, d.op.plain = true → d.off.toNat < d.region.size →
    d.off.toNat % d.op.bytes = 0 →
    (d.op.bytes = 1 ∨ d.op.bytes = 2 ∨ 8 < d.op.bytes ∨
      (d.op.bytes = 8 ∧ (d.region.kind = .mswi ∨ d.region.kind = .sswi))) →
    decode d = .error .wrongSize

/-- R67: atomic, reserved, conditional, cache-block and fetch accesses are no operation. That this is the
name also where such an access is misaligned (R61) or at 0x3FFC (R66) is the model's choice (log 26,
DESIGN CHOICE). -/
def Obligations.SpecialAccessIsNoOperation : Prop :=
  ∀ (r : Region) (off : Offset) (k : SpecialKind) (n : Nat), off.toNat < r.size →
    decode ⟨r, off, .special k n⟩ = .error .notPlain

/-- The rows of the source's Tables 3 to 6 (R52 to R54, R81): the words written out decode to the
registers they stand for. -/
def Obligations.SourceTableOffsetsDecode : Prop :=
  decode ⟨.mtime 0, 0x0000#16, .load 8⟩ = .ok (.mtimeR 0 .full) ∧
  decode ⟨.mtimecmp 0, 0x0008#16, .load 8⟩ = .ok (.mtimecmpR 0 1 .full) ∧
  decode ⟨.mtimecmp 0, 0x7FF0#16, .store 8 5⟩ = .ok (.mtimecmpW 0 4094 (.full 5#64)) ∧
  decode ⟨.mswi 0, 0x0004#16, .store 4 1⟩ = .ok (.msipW 0 1 1#32) ∧
  decode ⟨.mswi 0, 0x3FF8#16, .load 4⟩ = .ok (.msipR 0 4094) ∧
  decode ⟨.mswi 0, 0x3FFC#16, .load 4⟩ = .ok (.mswiReserved 0 .read) ∧
  decode ⟨.sswi 0, 0x3FF8#16, .store 4 3⟩ = .ok (.setssipW 0 4094 3#32) ∧
  decode ⟨.sswi 0, 0x3FFC#16, .store 4 1⟩ = .ok (.sswiReserved 0 (.write 1#32))

/-! ### The address map and the hart maps -/

/-- R80: an address that is located lies in the region it is located in, at the offset given, and the
configuration has that region. -/
def Obligations.LocatedAddressIsInItsRegion : Prop :=
  ∀ (cfg : Config) (addr : Nat) (r : Region) (off : Offset),
    locate cfg addr = some (r, off) →
    cfg.hasRegion r = true ∧
    ∃ base, regionBase cfg r = some base ∧ base ≤ addr ∧ addr < base + r.size ∧
      off.toNat = addr - base

/-- R80, R10(d): in a well-formed configuration every address of a region is located in that region, at
its distance from the base; an address of a shared MTIME, in the region of one of the devices on its
cell. -/
def Obligations.EveryRegionAddressIsLocated : Prop :=
  ∀ (cfg : Config) (r : Region) (base k : Nat), cfg.wf = true → cfg.hasRegion r = true →
    regionBase cfg r = some base → k < r.size →
    ∃ r', locate cfg (base + k) = some (r', BitVec.ofNat 16 k) ∧
      (r' = r ∨ ∃ t t' d d', r = .mtime t ∧ r' = .mtime t' ∧ cfg.mtimers[t]? = some d ∧
        cfg.mtimers[t']? = some d' ∧ d'.mtimeCell = d.mtimeCell)

/-- R80, R86: the physical access a well-formed operation stands for is located and decoded back to
that operation. MTIMER devices on one cell have their MTIME regions at the same addresses (R10(d)); that
an access there is one to the first of them is the model's choice, not R10(d)'s (log 11, DESIGN CHOICE;
log 20, DEDUCED), and the third hypothesis names that device. -/
def Obligations.PhysicalAccessReachesOperation : Prop :=
  ∀ (cfg : Config) (master : Nat) (i : Instr), cfg.wf = true → i.wf cfg = true →
    (∀ t d, (encode i).region = .mtime t → cfg.mtimers[t]? = some d →
      ∀ t' d', t' < t → cfg.mtimers[t']? = some d' → d'.mtimeCell ≠ d.mtimeCell) →
    (locate cfg (encodeAccess cfg master i).addr).map
      (fun p => decode ⟨p.1, p.2, (encodeAccess cfg master i).op⟩) = some (.ok i)

/-- R57, R58 (which of the MTIMER's two regions comes first is general knowledge, G7): in the
CLINT-compatible configuration at `B` MSIP<i> is at `B + 4 * i`, the RESERVED word at `B + 0x3FFC`,
MTIMECMP<i> at `B + 0x4000 + 8 * i`, MTIME at `B + 0xBFF8`, and nothing lies outside
`B .. B + 0xBFFF`. -/
def Obligations.ClintLayout : Prop :=
  ∀ B n : Nat, 0 < n →
    (∀ i : Nat, i ≤ 4095 →
      locate (Config.clint B n) (B + 4 * i) = some (.mswi 0, BitVec.ofNat 16 (4 * i))) ∧
    (∀ i : Nat, i ≤ 4094 →
      locate (Config.clint B n) (B + 0x4000 + 8 * i) = some (.mtimecmp 0, BitVec.ofNat 16 (8 * i))) ∧
    locate (Config.clint B n) (B + 0xBFF8) = some (.mtime 0, 0#16) ∧
    (∀ a : Nat, a < B ∨ B + 0xC000 ≤ a → locate (Config.clint B n) a = none)

/-- R10: the CLINT-compatible configuration of up to 4095 harts at a base that is a multiple of 8 is
well-formed, and so is the configuration of the reset state (the model's choice, log 1). -/
def Obligations.ClintConfigurationIsWellFormed : Prop :=
  (∀ B n : Nat, B % 8 = 0 → n ≤ 4095 → (Config.clint B n).wf = true) ∧
  Config.standard.wf = true

/-- R10(a), R10(b), R102, R131, R151: in a well-formed configuration a device's hart map is injective
and two devices of a kind serve no common hart. -/
def Obligations.HartMapsAreDisjoint : Prop :=
  ∀ cfg : Config, cfg.wf = true →
    DisjointHartMaps (cfg.mtimers.map (·.harts)) ∧ DisjointHartMaps (cfg.mswis.map (·.harts)) ∧
    DisjointHartMaps (cfg.sswis.map (·.harts))

/-- R171, R186: in a well-formed configuration the device and hart index found for a hart are the ones
whose wire goes to it. -/
def Obligations.HartLookupInvertsHartMaps : Prop :=
  ∀ cfg : Config, cfg.wf = true →
    LookupInvertsMaps (cfg.mtimers.map (·.harts)) ∧ LookupInvertsMaps (cfg.mswis.map (·.harts)) ∧
    LookupInvertsMaps (cfg.sswis.map (·.harts))

/-! ### Reset -/

/-- R30, R31, R32: on every configuration, MTIME is cleared to zero, every MTIMECMP is unknown, every
MSIP is cleared to zero, so that no machine software interrupt is pending. -/
def Obligations.ResetRegisterValues : Prop :=
  ∀ (cfg : Config) (c d : Nat) (i : HartIndex),
    (State.resetOf cfg).getMtime c = 0#64 ∧
    ((State.resetOf cfg).getCompare d i).value = none ∧
    (State.resetOf cfg).getMsip d i = false ∧ (State.resetOf cfg).msipWire d i = false

/-- R33, R34, R200 (decisions D15, D2): nothing in flight, no mark; each hart's SSIP is its initial bit, a
draw (U21, log 9); the reset state is the initial state on the standard configuration (log 1). -/
def Obligations.ResetLeavesNothingPending : Prop :=
  (∀ (cfg : Config) (d h : Nat) (i : HartIndex),
    (State.resetOf cfg).getInflight d i = 0 ∧ (State.resetOf cfg).Unmarked ∧
    (State.resetOf cfg).getSsip h = Config.initialSsip h ∧ (State.resetOf cfg).cfg = cfg) ∧
  State.reset = State.resetOf Config.standard

/-! ### MTIMER operations -/

/-- R111: MTIME.R, an 8-byte read at offset 0, answers the counter; the state is unchanged. -/
def Obligations.MtimeReadAnswersCounter : Prop :=
  ∀ (s : State) (t : Nat) (d : Mtimer), s.cfg.mtimers[t]? = some d →
    decode ⟨.mtime t, 0#16, .load 8⟩ = .ok (.mtimeR t .full) ∧
    exec (.mtimeR t .full) s = .next { s with resp := some (.data64 (s.getMtime d.mtimeCell)) }

/-- R112: MTIME.W, an 8-byte write at offset 0, stores all 64 bits, every MTIP wire on the cell is
re-evaluated by R108 in the same step, and nothing else changes. That the comparison is unsigned is the
spec's decision D10 (R110, from general knowledge G8; log 15, PRESUMED). -/
def Obligations.MtimeWriteStoresCounter : Prop :=
  ∀ (s : State) (t : Nat) (d : Mtimer) (v : Word64), s.cfg.mtimers[t]? = some d →
    decode ⟨.mtime t, 0#16, .store 8 v.toNat⟩ = .ok (.mtimeW t (.full v)) ∧
    ∃ u, exec (.mtimeW t (.full v)) s = .next u ∧
      u = { s with mtime := u.mtime, resp := some .ack } ∧
      u.getMtime d.mtimeCell = v ∧
      (∀ c, c ≠ d.mtimeCell → u.getMtime c = s.getMtime c) ∧
      (∀ t' d' i w, s.cfg.mtimers[t']? = some d' → d'.mtimeCell = d.mtimeCell →
        (s.getCompare t' i).value = some w →
        u.mtipWire t' i = some (decide (w.toNat ≤ v.toNat)))

/-- R103: two MTIMERs on one cell read and write the same 64 bits, and keep their own compare
registers. -/
def Obligations.SharedMtimeIsOneRegister : Prop :=
  ∀ (s : State) (t₁ t₂ : Nat) (d₁ d₂ : Mtimer) (v : Word64),
    s.cfg.mtimers[t₁]? = some d₁ → s.cfg.mtimers[t₂]? = some d₂ →
    d₁.mtimeCell = d₂.mtimeCell →
    ∃ u, exec (.mtimeW t₁ (.full v)) s = .next u ∧
      exec (.mtimeR t₂ .full) u = .next { u with resp := some (.data64 v) } ∧
      ∀ t i, u.getCompare t i = s.getCompare t i

/-- R113: MTIMECMP.R of a served index answers the value; while the register is unknown it answers a
fresh draw (D14) and the register stays unknown. Nothing else changes. -/
def Obligations.MtimecmpReadAnswersValueOrDraw : Prop :=
  ∀ (s : State) (t : Nat) (d : Mtimer) (i : HartIndex), s.cfg.mtimers[t]? = some d →
    i.toNat < hartCount d.harts →
    (∀ w, (s.getCompare t i).value = some w →
      exec (.mtimecmpR t i .full) s = .next { s with resp := some (.data64 w) }) ∧
    ((s.getCompare t i).value = none →
      exec (.mtimecmpR t i .full) s =
        .next { s with
          resp := some (.data64 (BitVec.ofNat 64 (Config.freeNat s.draws)))
          draws := s.draws + 1 })

/-- R114: MTIMECMP.W of a served index stores all 64 bits, its MTIP wire is re-evaluated by R108 in the
same step, and no other register or wire changes. That the comparison is unsigned is the spec's decision
D10 (R110; log 15, PRESUMED). -/
def Obligations.MtimecmpWriteStoresCompare : Prop :=
  ∀ (s : State) (t : Nat) (d : Mtimer) (i : HartIndex) (v : Word64),
    s.cfg.mtimers[t]? = some d → i.toNat < hartCount d.harts →
    ∃ u, exec (.mtimecmpW t i (.full v)) s = .next u ∧
      u = { s with mtimecmp := u.mtimecmp, resp := some .ack } ∧
      (u.getCompare t i).value = some v ∧
      u.mtipWire t i = some (decide (v.toNat ≤ (s.getMtime d.mtimeCell).toNat)) ∧
      (∀ t' i', ¬ (t' = t ∧ i' = i) →
        u.getCompare t' i' = s.getCompare t' i' ∧ u.mtipWire t' i' = s.mtipWire t' i')

/-- R62 (general knowledge G10, D5): under half access a 4-byte read answers bits 31:0 or 63:32 of the
counter of any MTIMER, one with no harts included (R101), or of a known compare register of a served
index, and a draw for an unknown one, even where the half read is recorded (log 10). -/
def Obligations.HalfReadsAnswerHalves : Prop :=
  ∀ (s : State) (t : Nat) (d : Mtimer), s.cfg.halfAccess64 = true → s.cfg.mtimers[t]? = some d →
    exec (.mtimeR t .low) s =
      .next { s with resp := some (.data32 ((s.getMtime d.mtimeCell).extractLsb' 0 32)) } ∧
    exec (.mtimeR t .high) s =
      .next { s with resp := some (.data32 ((s.getMtime d.mtimeCell).extractLsb' 32 32)) } ∧
    (∀ i : HartIndex, i.toNat < hartCount d.harts →
      (∀ w, (s.getCompare t i).value = some w →
        exec (.mtimecmpR t i .low) s =
          .next { s with resp := some (.data32 (w.extractLsb' 0 32)) } ∧
        exec (.mtimecmpR t i .high) s =
          .next { s with resp := some (.data32 (w.extractLsb' 32 32)) }) ∧
      ((s.getCompare t i).value = none → ∀ l, l ≠ .full →
        exec (.mtimecmpR t i l) s =
          .next { s with
            resp := some (.data32 (BitVec.ofNat 32 (Config.freeNat s.draws)))
            draws := s.draws + 1 }))

/-- R62 (G10, D5): under half access a 4-byte write to MTIME replaces one half and keeps the other. -/
def Obligations.HalfWritesOfMtime : Prop :=
  ∀ (s : State) (t : Nat) (d : Mtimer) (v : Word32), s.cfg.halfAccess64 = true →
    s.cfg.mtimers[t]? = some d →
    (∃ u, exec (.mtimeW t (.low v)) s = .next u ∧
      u = { s with mtime := u.mtime, resp := some .ack } ∧
      (∀ c, c ≠ d.mtimeCell → u.getMtime c = s.getMtime c) ∧
      u.getMtime d.mtimeCell = (s.getMtime d.mtimeCell).extractLsb' 32 32 ++ v) ∧
    (∃ u, exec (.mtimeW t (.high v)) s = .next u ∧
      u = { s with mtime := u.mtime, resp := some .ack } ∧
      (∀ c, c ≠ d.mtimeCell → u.getMtime c = s.getMtime c) ∧
      u.getMtime d.mtimeCell = v ++ (s.getMtime d.mtimeCell).extractLsb' 0 32)

/-- R62, R22 (G10, D5): under half access a 4-byte write to MTIMECMP records one half and keeps the
other, known or unknown, and nothing else changes; after both halves, in either order, the register
holds the value they form. -/
def Obligations.HalfWritesOfMtimecmp : Prop :=
  ∀ (s : State) (t : Nat) (d : Mtimer) (i : HartIndex) (lo hi : Word32),
    s.cfg.halfAccess64 = true → s.cfg.mtimers[t]? = some d → i.toNat < hartCount d.harts →
    ∃ u v u' v',
      exec (.mtimecmpW t i (.low lo)) s = .next u ∧
      u = { s with mtimecmp := u.mtimecmp, resp := some .ack } ∧
      u.getCompare t i = { s.getCompare t i with lo := some lo } ∧
      (∀ t' i', ¬ (t' = t ∧ i' = i) → u.getCompare t' i' = s.getCompare t' i') ∧
      exec (.mtimecmpW t i (.high hi)) u = .next u' ∧
      (u'.getCompare t i).value = some (hi ++ lo) ∧
      exec (.mtimecmpW t i (.high hi)) s = .next v ∧
      v = { s with mtimecmp := v.mtimecmp, resp := some .ack } ∧
      v.getCompare t i = { s.getCompare t i with hi := some hi } ∧
      (∀ t' i', ¬ (t' = t ∧ i' = i) → v.getCompare t' i' = s.getCompare t' i') ∧
      exec (.mtimecmpW t i (.low lo)) v = .next v' ∧
      (v'.getCompare t i).value = some (hi ++ lo)

/-- R62, R64 (D5, D8): without half access a 4-byte access to MTIME, or to an MTIMECMP of a served index,
has R64's outcome. Model's choices in that outcome (`BadOutcome`): refuse and fault are next states
(log 6, DEDUCED), and a mark already set keeps naming the first access (log 7, DEDUCED). -/
def Obligations.HalfAccessesAreUndefinedByDefault : Prop :=
  ∀ (s : State) (t : Nat) (d : Mtimer) (l : Lane) (w : WriteData),
    s.cfg.halfAccess64 = false → l ≠ .full → w.lane ≠ .full → s.cfg.mtimers[t]? = some d →
    (∀ op ∈ [Instr.mtimeR t l, .mtimeW t w],
      ∃ u, exec op s = .next u ∧ BadOutcome .halfAccessOff (encode op) s u) ∧
    (∀ i : HartIndex, i.toNat < hartCount d.harts →
      ∀ op ∈ [Instr.mtimecmpR t i l, .mtimecmpW t i w],
        ∃ u, exec op s = .next u ∧ BadOutcome .halfAccessOff (encode op) s u)

/-- R108 (unsigned: R110, D10; log 15, PRESUMED), R109 (D14), R119: the wire MTIP(t, i) is true when MTIME
is greater than or equal to the compare value and false when it is less; while the compare register is
unknown it has no value (`none`, each look at which is a draw). -/
def Obligations.MtipIsUnsignedComparison : Prop :=
  ∀ (s : State) (t : Nat) (d : Mtimer) (i : HartIndex), s.cfg.mtimers[t]? = some d →
    (∀ w, (s.getCompare t i).value = some w →
      (s.mtipWire t i = some true ↔ w.toNat ≤ (s.getMtime d.mtimeCell).toNat) ∧
      (s.mtipWire t i = some false ↔ (s.getMtime d.mtimeCell).toNat < w.toNat)) ∧
    ((s.getCompare t i).value = none → s.mtipWire t i = none)

/-! ### MSWI operations -/

/-- R133: MSIP.R, a 4-byte read at offset `4 * i` of a served index, answers the bit, bits 31 to 1 zero;
the state is unchanged. -/
def Obligations.MsipReadAnswersBit : Prop :=
  ∀ (s : State) (m : Nat) (d : SwiDevice) (i : HartIndex), s.cfg.mswis[m]? = some d →
    i.toNat < hartCount d.harts →
    (i.toNat ≤ 4094 → decode ⟨.mswi m, BitVec.ofNat 16 (4 * i.toNat), .load 4⟩ = .ok (.msipR m i)) ∧
    exec (.msipR m i) s =
      .next { s with resp := some (.data32 (if s.getMsip m i = true then 1#32 else 0#32)) }

/-- R134: MSIP.W, a 4-byte write at offset `4 * i` of a served index, stores bit 0 of the data, whatever
the other bits, and its wire follows in the same step; no other wire and nothing else changes. -/
def Obligations.MsipWriteStoresBitZero : Prop :=
  ∀ (s : State) (m : Nat) (d : SwiDevice) (i : HartIndex) (v : Word32),
    s.cfg.mswis[m]? = some d → i.toNat < hartCount d.harts →
    (i.toNat ≤ 4094 →
      decode ⟨.mswi m, BitVec.ofNat 16 (4 * i.toNat), .store 4 v.toNat⟩ = .ok (.msipW m i v)) ∧
    ∃ u, exec (.msipW m i v) s = .next u ∧
      u = { s with msip := u.msip, resp := some .ack } ∧
      u.getMsip m i = v.getLsbD 0 ∧ u.msipWire m i = v.getLsbD 0 ∧
      (∀ m' i', ¬ (m' = m ∧ i' = i) →
        u.getMsip m' i' = s.getMsip m' i' ∧ u.msipWire m' i' = s.msipWire m' i') ∧
      (∀ t j, u.mtipWire t j = s.mtipWire t j)

/-- R84, R133, R134: what MSIP.R answers after MSIP.W of `v` is `v` with its upper 31 bits zero. -/
def Obligations.MsipReadsBackOneBit : Prop :=
  ∀ (s : State) (m : Nat) (d : SwiDevice) (i : HartIndex) (v : Word32),
    s.cfg.mswis[m]? = some d → i.toNat < hartCount d.harts →
    ∃ u, exec (.msipW m i v) s = .next u ∧
      exec (.msipR m i) u = .next { u with resp := some (.data32 (v &&& 1#32)) }

/-! ### SSWI operations -/

/-- R154: SETSSIP.R, a 4-byte read at offset `4 * i` of a served index, answers 0, whether or not an edge
is in flight; the state is unchanged. -/
def Obligations.SetssipReadsZero : Prop :=
  ∀ (s : State) (m : Nat) (d : SwiDevice) (i : HartIndex), s.cfg.sswis[m]? = some d →
    i.toNat < hartCount d.harts →
    (i.toNat ≤ 4094 →
      decode ⟨.sswi m, BitVec.ofNat 16 (4 * i.toNat), .load 4⟩ = .ok (.setssipR m i)) ∧
    exec (.setssipR m i) s = .next { s with resp := some (.data32 0#32) }

/-- R155 (the count: D13): SETSSIP.W of a served index sends one edge when bit 0 of the data is 1 and
changes nothing when it is 0. -/
def Obligations.SetssipWriteSendsEdge : Prop :=
  ∀ (s : State) (m : Nat) (d : SwiDevice) (i : HartIndex) (v : Word32),
    s.cfg.sswis[m]? = some d → i.toNat < hartCount d.harts →
    (v.getLsbD 0 = false → exec (.setssipW m i v) s = .next { s with resp := some .ack }) ∧
    (v.getLsbD 0 = true → ∃ u, exec (.setssipW m i v) s = .next u ∧
      u = { s with inflight := u.inflight, resp := some .ack } ∧
      u.getInflight m i = s.getInflight m i + 1 ∧
      (∀ m' i', ¬ (m' = m ∧ i' = i) → u.getInflight m' i' = s.getInflight m' i'))

/-! ### Accesses the source does not define -/

/-- R136, R160, R66, R64 (D8): a read or write of a RESERVED word has R64's outcome: never an MSIP or
SETSSIP register, never an edge. Model's choices in that outcome (`BadOutcome`): refuse and fault are
next states (log 6, DEDUCED), and a mark already set keeps naming the first access (log 7, DEDUCED). -/
def Obligations.ReservedWordsHaveBadOutcome : Prop :=
  (∀ (s : State) (m : Nat) (a : ReservedAccess), m < s.cfg.mswis.length →
    ∃ u, exec (.mswiReserved m a) s = .next u ∧
      BadOutcome .reserved (encode (.mswiReserved m a)) s u) ∧
  (∀ (s : State) (d : Nat) (a : ReservedAccess), d < s.cfg.sswis.length →
    ∃ u, exec (.sswiReserved d a) s = .next u ∧
      BadOutcome .reserved (encode (.sswiReserved d a)) s u)

/-- R65, R64 (D8): an operation on the slot of a hart index the device does not serve has R64's
outcome, in whatever part of the register. Model's choices: refuse and fault are next states (log 6,
DEDUCED), a mark already set keeps naming the first access (log 7, DEDUCED), a half is named unconnected
with half access on or off (log 26, DESIGN CHOICE). Index 4095 is covered too, which R65 (i at most
4094) does not name and no access decodes to. -/
def Obligations.UnconnectedSlotsHaveBadOutcome : Prop :=
  (∀ (s : State) (t : Nat) (d : Mtimer) (i : HartIndex) (l : Lane) (w : WriteData),
    s.cfg.mtimers[t]? = some d → hartCount d.harts ≤ i.toNat →
    ∀ op ∈ [Instr.mtimecmpR t i l, .mtimecmpW t i w],
      ∃ u, exec op s = .next u ∧ BadOutcome .unconnected (encode op) s u) ∧
  (∀ (s : State) (m : Nat) (d : SwiDevice) (i : HartIndex) (v : Word32),
    s.cfg.mswis[m]? = some d → hartCount d.harts ≤ i.toNat →
    ∀ op ∈ [Instr.msipR m i, .msipW m i v],
      ∃ u, exec op s = .next u ∧ BadOutcome .unconnected (encode op) s u) ∧
  (∀ (s : State) (m : Nat) (d : SwiDevice) (i : HartIndex) (v : Word32),
    s.cfg.sswis[m]? = some d → hartCount d.harts ≤ i.toNat →
    ∀ op ∈ [Instr.setssipR m i, .setssipW m i v],
      ∃ u, exec op s = .next u ∧ BadOutcome .unconnected (encode op) s u)

/-- R61, R63, R67, R64 (D8): a step whose access reaches a device and is no operation has R64's
outcome. Model's choices: refuse and fault are next states (log 6, DEDUCED), a mark already set keeps
naming the first access (log 7, DEDUCED), the direction recorded for an access of R67 and what it is
answered under ignore (log 8, DESIGN CHOICE), and the reason recorded where two rules name the access
(log 26, DESIGN CHOICE). -/
def Obligations.UndecodedAccessHasBadOutcome : Prop :=
  ∀ (s : State) (a : BusAccess) (rest : List Event) (r : Region) (off : Offset) (why : BadReason),
    s.agenda = .bus a :: rest → locate s.cfg a.addr = some (r, off) →
    mayAccess s.cfg a.master r.device = true → decode ⟨r, off, a.op⟩ = .error why →
    ∃ u, step s = .next u ∧
      BadOutcome why ⟨r, off, a.op⟩ { s with agenda := rest, master := a.master } u

/-- R183 (D16): an access the platform keeps from the device never reaches it: nothing but the event's
passing and the answer changes. R183 leaves the rest to the platform; that the step answers `blocked`,
and that at the address of a shared MTIME the first device's entry decides, is the model's choice
(log 11, DESIGN CHOICE). -/
def Obligations.BlockedAccessNeverReachesDevice : Prop :=
  ∀ (s : State) (a : BusAccess) (rest : List Event) (r : Region) (off : Offset),
    s.agenda = .bus a :: rest → locate s.cfg a.addr = some (r, off) →
    mayAccess s.cfg a.master r.device = false →
    step s = .next { s with agenda := rest, master := a.master, resp := some .blocked }

/-- R50, R80: an access that starts in no region is no ACLINT operation: no device changes.
That the step answers so is the model's choice (log 12, DEDUCED). -/
def Obligations.AccessOutsideRegionsChangesNoDevice : Prop :=
  ∀ (s : State) (a : BusAccess) (rest : List Event),
    s.agenda = .bus a :: rest → locate s.cfg a.addr = none →
    step s = .next { s with agenda := rest, master := a.master, resp := some .notAclint }

/-! ### Steps -/

/-- R69, R70, R80, R86: when the next event is an access that the platform lets through to a region and
that decodes to an operation, the step is that operation, at the state with the event taken off the
agenda and its master noted. -/
def Obligations.StepRunsDecodedInstruction : Prop :=
  ∀ (s : State) (a : BusAccess) (rest : List Event) (r : Region) (off : Offset) (i : Instr),
    s.agenda = .bus a :: rest → locate s.cfg a.addr = some (r, off) →
    mayAccess s.cfg a.master r.device = true → decode ⟨r, off, a.op⟩ = .ok i →
    step s = exec i { s with agenda := rest, master := a.master }

/-- R106 (D11): below the top of the range TICK adds one to its cell, every MTIP wire on the cell is
re-evaluated by R108 in the same step, and nothing else changes. That the comparison is unsigned is the
spec's decision D10 (R110; log 15, PRESUMED). -/
def Obligations.TickAdvancesItsCell : Prop :=
  ∀ (s : State) (c : Nat) (rest : List Event), s.agenda = .tick c :: rest → c ∈ cells s.cfg →
    s.getMtime c ≠ BitVec.allOnes 64 →
    ∃ u, step s = .next u ∧ u = { s with agenda := rest, mtime := u.mtime } ∧
      (u.getMtime c).toNat = (s.getMtime c).toNat + 1 ∧
      (∀ c', c' ≠ c → u.getMtime c' = s.getMtime c') ∧
      (∀ t d i w, s.cfg.mtimers[t]? = some d → d.mtimeCell = c →
        (s.getCompare t i).value = some w →
        u.mtipWire t i = some (decide (w.toNat ≤ (s.getMtime c).toNat + 1)))

/-- R107 (D11): at the top of the range TICK takes the counter to 0 under `wrap`, and is not enabled
under `stuck`. R107 says no more of `stuck`; that the event then passes, the step answering a next state
with only the event gone, is the model's choice (log 18, DESIGN CHOICE). -/
def Obligations.TickAtTheTop : Prop :=
  ∀ (s : State) (c : Nat) (rest : List Event), s.agenda = .tick c :: rest → c ∈ cells s.cfg →
    s.getMtime c = BitVec.allOnes 64 →
    (s.cfg.mtimeWrap = .wrap → ∃ u, step s = .next u ∧
      u = { s with agenda := rest, mtime := u.mtime } ∧ u.getMtime c = 0#64 ∧
      (∀ c', c' ≠ c → u.getMtime c' = s.getMtime c')) ∧
    (s.cfg.mtimeWrap = .stuck → step s = .next { s with agenda := rest })

/-- R157, R158 (D13): DELIVER takes some number of edges between one and all of those in flight to its
hart and sets that hart's SSIP; no other count and no other hart's bit changes. -/
def Obligations.DeliverSetsSsip : Prop :=
  ∀ (s : State) (d : Nat) (i : HartIndex) (rest : List Event) (dev : SwiDevice) (h : Nat),
    s.agenda = .deliver d i :: rest → s.cfg.sswis[d]? = some dev →
    hartOf dev.harts i.toNat = some h → 0 < s.getInflight d i →
    ∃ u k, 1 ≤ k ∧ k ≤ s.getInflight d i ∧ step s = .next u ∧
      u = { s with agenda := rest, inflight := u.inflight, ssip := u.ssip, draws := s.draws + 1 } ∧
      u.getInflight d i = s.getInflight d i - k ∧
      (∀ d' i', ¬ (d' = d ∧ i' = i) → u.getInflight d' i' = s.getInflight d' i') ∧
      u.getSsip h = true ∧ (∀ h', h' ≠ h → u.getSsip h' = s.getSsip h')

/-- R157 (D13): DELIVER is not enabled while no edge is in flight. The spec has no step for that; that the
event passes with no effect is the model's choice (log 18, DESIGN CHOICE). -/
def Obligations.DeliverNeedsAnEdge : Prop :=
  ∀ (s : State) (d : Nat) (i : HartIndex) (rest : List Event),
    s.agenda = .deliver d i :: rest → s.getInflight d i = 0 →
    step s = .next { s with agenda := rest }

/-- R172, R175, R176, R10 (D12): what a hart sees at its `mip` bits in a well-formed configuration: MTIP
is the wire of the MTIMER and index that serve it, the bit of a fresh draw while the compare register is
unknown (R109), and nothing where none serves it; MSIP is its wire, or nothing; SSIP is the hart's
own bit, so that looks with no write between them agree on it. Nothing else changes. The look is an event
of the model's (log 23, DEDUCED). -/
def Obligations.HartSeesItsWires : Prop :=
  ∀ (s : State) (h : Nat) (rest : List Event), s.cfg.wf = true →
    s.agenda = .sampleMip h :: rest →
    ∃ u view, step s = .next u ∧
      u = { s with agenda := rest, mipView := some view, draws := s.draws + 1 } ∧
      view.hart = h ∧
      (∀ t d i, s.cfg.mtimers[t]? = some d → hartOf d.harts i.toNat = some h →
        view.mtip ≠ none ∧ (∀ b, s.mtipWire t i = some b → view.mtip = some b) ∧
        ((s.getCompare t i).value = none →
          view.mtip = some (decide (Config.freeNat s.draws % 2 = 1)))) ∧
      ((∀ (t : Nat) (d : Mtimer) (i : HartIndex), s.cfg.mtimers[t]? = some d →
        hartOf d.harts i.toNat ≠ some h) → view.mtip = none) ∧
      (∀ m d i, s.cfg.mswis[m]? = some d → hartOf d.harts i.toNat = some h →
        view.msip = some (s.msipWire m i)) ∧
      ((∀ (m : Nat) (d : SwiDevice) (i : HartIndex), s.cfg.mswis[m]? = some d →
        hartOf d.harts i.toNat ≠ some h) → view.msip = none) ∧
      view.ssip = s.getSsip h ∧ u.getSsip h = s.getSsip h

/-- R159, R176: software on a hart clears or sets its own SSIP directly; no device and no other hart's
bit changes. The same event stands for any other writer of the bit (N22; log 30, DESIGN CHOICE). -/
def Obligations.HartWritesItsSsip : Prop :=
  ∀ (s : State) (h : Nat) (b : Bool) (rest : List Event), s.agenda = .writeSsip h b :: rest →
    ∃ u, step s = .next u ∧ u = { s with agenda := rest, ssip := u.ssip } ∧
      u.getSsip h = b ∧ (∀ h', h' ≠ h → u.getSsip h' = s.getSsip h')

/-! ### Whole-machine rules -/

/-- R68, of the admitted reads: no read has a side effect: a read of an existing region completes, and no
register, count, hart bit or wire differs after it, whatever it answers. The reads that are not admitted
(an index not served, R65; a half with half access off, R62) are covered too: R64 changes no device
state, and that its refuse and fault are next states is the model's choice (log 6, DEDUCED). -/
def Obligations.ReadsHaveNoSideEffect : Prop :=
  ∀ (s : State) (i : Instr), i.isRead = true → s.cfg.hasRegion (encode i).region = true →
    ∃ u, exec i s = .next u ∧ s.SameDevices u ∧ u.agenda = s.agenda ∧
      (∀ t j, u.mtipWire t j = s.mtipWire t j) ∧ (∀ m j, u.msipWire m j = s.msipWire m j)

/-- R4: no operation on one kind of device changes the state of another kind, and no operation changes
a hart's SSIP bit (R155). -/
def Obligations.DeviceKindsAreIndependent : Prop :=
  ∀ (s u : State) (i : Instr), exec i s = .next u →
    u.ssip = s.ssip ∧
    ((∀ t, (encode i).region ≠ .mtime t) → u.mtime = s.mtime) ∧
    ((∀ t, (encode i).region ≠ .mtimecmp t) → u.mtimecmp = s.mtimecmp) ∧
    ((∀ m, (encode i).region ≠ .mswi m) → u.msip = s.msip) ∧
    ((∀ d, (encode i).region ≠ .sswi d) → u.inflight = s.inflight)

/-- R182, R187: the devices do not know who accesses them: of two masters let through to the device, the
same access leaves the same devices and the same answer. -/
def Obligations.MasterDoesNotMatter : Prop :=
  ∀ (s u : State) (a : BusAccess) (master' : Nat),
    (∀ r off, locate s.cfg a.addr = some (r, off) →
      mayAccess s.cfg a.master r.device = true ∧ mayAccess s.cfg master' r.device = true) →
    performBus a s = .next u →
    ∃ u', performBus { a with master := master' } s = .next u' ∧
      u.SameDevices u' ∧ u'.resp = u.resp ∧ u'.agenda = u.agenda ∧ u'.draws = u.draws

/-- The invariant holds in the initial state of every configuration (R200). -/
def Obligations.ResetMeetsInvariant : Prop :=
  (∀ cfg : Config, (State.resetOf cfg).Inv) ∧ State.reset.Inv

/-- Every step keeps the invariant: the register banks in canonical form, nothing stored for a register
the configuration does not have (R22, R23, R25, R29, R65), and, without half accesses, no compare
register half known (R22). -/
def Obligations.StepKeepsInvariant : Prop :=
  ∀ s u : State, s.Inv → step s = .next u → u.Inv

/-- Nothing a bus master sends stops the machine: every step of every state answers a next state. This is
the model's form of R170 and R64 and no rule's own words: R14 lists a refusal and a fault apart from a
next state, and here both are next states with a mark (log 6, DEDUCED; under `fault` the next state
carries the AccessFault); an event that is not enabled passes (log 18, DESIGN CHOICE); the step in which
an event comes onto the agenda is the model's (log 5, DESIGN CHOICE); an owed step with no internal agent
(log 28, DESIGN CHOICE) or with one that is not enabled (log 29, DESIGN CHOICE) moves the scheduler
only. -/
def Obligations.EveryStepGoesOn : Prop := ∀ s : State, ∃ u, step s = .next u

/-- R9: no rule writes the configuration. -/
def Obligations.ConfigurationNeverChanges : Prop :=
  ∀ s u : State, step s = .next u → u.cfg = s.cfg

/-- R40: a mark that is set, no later step clears. That no later step changes it either, so that it keeps
naming the first access, is the model's choice (log 7, DEDUCED). Only an access of a bus master can set
one; and a run that ends with no refusal and no fault recorded had none at any of its steps, so that
R40's premise on a run is one about its end. -/
def Obligations.MarksAreSticky : Prop :=
  (∀ s u : State, step s = .next u →
    (∀ r, s.refusalMark = some r → u.refusalMark = some r) ∧
    (∀ f, s.faultMark = some f → u.faultMark = some f) ∧
    ((∀ a rest, s.agenda ≠ .bus a :: rest) →
      u.refusalMark = s.refusalMark ∧ u.faultMark = s.faultMark)) ∧
  (∀ (n : Nat) (s t : State), Host.Core.run core n s = .next t → t.Unmarked →
    ∀ k ≤ n, ∃ v, Host.Core.run core k s = .next v ∧ v.Unmarked)

/-- R114: a compare register that holds a value is never unknown again. -/
def Obligations.CompareStaysKnown : Prop :=
  ∀ (s u : State) (t : Nat) (i : HartIndex), step s = .next u →
    (s.getCompare t i).value ≠ none → (u.getCompare t i).value ≠ none

/-- R23, R134, R135: a stored MSIP bit changes only in a step that is a 4-byte store to its own
register, and then to bit 0 of the data. -/
def Obligations.MsipChangesOnlyByItsWrite : Prop :=
  ∀ (s u : State) (m : Nat) (i : HartIndex), step s = .next u → u.getMsip m i ≠ s.getMsip m i →
    ∃ a rest v, s.agenda = .bus a :: rest ∧ a.op = .store 4 v ∧
      locate s.cfg a.addr = some (.mswi m, offsetI i) ∧ u.getMsip m i = v.testBit 0

/-- R22, R114, R106: a compare register changes only in a step that is a store to its own eight bytes;
in particular no tick changes it. -/
def Obligations.CompareChangesOnlyByItsWrite : Prop :=
  ∀ (s u : State) (t : Nat) (i : HartIndex), step s = .next u →
    u.getCompare t i ≠ s.getCompare t i →
    ∃ a rest n v off, s.agenda = .bus a :: rest ∧ a.op = .store n v ∧
      locate s.cfg a.addr = some (.mtimecmp t, off) ∧ off.toNat / 8 = i.toNat

/-- R106, R112, R117: a step that changes a counter is a store to an MTIME region on its cell, or a tick of
that cell, by its event or by the devices themselves, which leaves it at the old value plus one, below
the top of the range or, under `wrap`, at it (R107). So a counter goes back only by such a store, or by
wrapping from the top to 0. -/
def Obligations.MtimeGoesBackOnlyByWriteOrWrap : Prop :=
  ∀ (s u : State) (c : Nat), step s = .next u →
    (u.getMtime c ≠ s.getMtime c →
      (∃ a rest n v t d off, s.agenda = .bus a :: rest ∧ a.op = .store n v ∧
        locate s.cfg a.addr = some (.mtime t, off) ∧ s.cfg.mtimers[t]? = some d ∧
        d.mtimeCell = c) ∨
      ((s.agenda = [] ∨ ∃ rest, s.agenda = .tick c :: rest) ∧ c ∈ cells s.cfg ∧
        u.getMtime c = s.getMtime c + 1#64 ∧
        (s.getMtime c = BitVec.allOnes 64 → s.cfg.mtimeWrap = .wrap))) ∧
    ((u.getMtime c).toNat < (s.getMtime c).toNat →
      (∃ a rest n v t d off, s.agenda = .bus a :: rest ∧ a.op = .store n v ∧
        locate s.cfg a.addr = some (.mtime t, off) ∧ s.cfg.mtimers[t]? = some d ∧
        d.mtimeCell = c) ∨
      (s.cfg.mtimeWrap = .wrap ∧ s.getMtime c = BitVec.allOnes 64 ∧ u.getMtime c = 0#64))

/-- R155, R158 (D13): an edge enters only by a store of data with bit 0 set to its register, one at a
time, and leaves only in a DELIVER to its hart, by its event or by the devices themselves, after which
that hart's SSIP is set: none is ever dropped. -/
def Obligations.EdgesAreNeverDropped : Prop :=
  ∀ (s u : State) (d : Nat) (i : HartIndex), step s = .next u →
    (s.getInflight d i < u.getInflight d i →
      u.getInflight d i = s.getInflight d i + 1 ∧
      ∃ a rest v, s.agenda = .bus a :: rest ∧ a.op = .store 4 v ∧ v.testBit 0 = true ∧
        locate s.cfg a.addr = some (.sswi d, offsetI i)) ∧
    (u.getInflight d i < s.getInflight d i →
      (s.agenda = [] ∨ ∃ rest, s.agenda = .deliver d i :: rest) ∧
      ∃ dev h, s.cfg.sswis[d]? = some dev ∧ hartOf dev.harts i.toNat = some h ∧ u.getSsip h = true)

/-- R158, R159, R176: the ACLINT changes a hart's SSIP only by delivering an edge that was in flight to it,
and then to 1: the devices never clear it and never set it with no write behind it. Every other change is
a write of the bit from outside the ACLINT, by the hart's software or by another writer, which N22 says
not to exclude; one event stands for both (log 30, DESIGN CHOICE). -/
def Obligations.SsipChangesOnlyByHartOrDelivery : Prop :=
  ∀ (s u : State) (h : Nat), step s = .next u → u.getSsip h ≠ s.getSsip h →
    (∃ b rest, s.agenda = .writeSsip h b :: rest ∧ u.getSsip h = b) ∨
    (u.getSsip h = true ∧ ∃ d dev i, s.cfg.sswis[d]? = some dev ∧
      (s.agenda = [] ∨ ∃ rest, s.agenda = .deliver d i :: rest) ∧
      hartOf dev.harts i.toNat = some h ∧ 0 < s.getInflight d i ∧
      u.getInflight d i < s.getInflight d i)

/-- R106, R70 item 2 (D11), R40: in a run with no refusal and no fault recorded, `n` ticks of a cell in a
row, under `wrap`, add `n` to it modulo 2^64 and do nothing else. -/
def Obligations.TicksAddUp : Prop :=
  ∀ (n : Nat) (s : State) (c : Nat) (rest : List Event), s.UnmarkedFor n →
    s.cfg.mtimeWrap = .wrap → c ∈ cells s.cfg → s.agenda = List.replicate n (.tick c) ++ rest →
    ∃ u, Host.Core.run core n s = .next u ∧ u = { s with agenda := rest, mtime := u.mtime } ∧
      u.getMtime c = s.getMtime c + BitVec.ofNat 64 n ∧
      (∀ c', c' ≠ c → u.getMtime c' = s.getMtime c')

/-- R157, R70 item 4 (D13), R40: a write to SETSSIP is guaranteed to be reflected in SSIP: in a run with no
refusal and no fault recorded, from every state with an edge in flight to a served hart, whatever is
still on the agenda, whatever the masters and harts then do and whatever the draws, some later step
delivers it and leaves that hart's SSIP set. It rests on the model's scheduler (log 5, DESIGN CHOICE),
which gives the fairness R157 asks for. -/
def Obligations.DeliveryIsGuaranteed : Prop :=
  ∀ (s : State) (d : Nat) (i : HartIndex) (dev : SwiDevice) (h : Nat), s.RunUnmarked →
    s.cfg.sswis[d]? = some dev → hartOf dev.harts i.toNat = some h → 0 < s.getInflight d i →
    ∃ n t u, Host.Core.run core n s = .next t ∧ step t = .next u ∧
      u.getInflight d i < t.getInflight d i ∧ u.getSsip h = true

/-- R106, R107 (D11), R40: in a run with no refusal and no fault recorded, every cell ticks infinitely
often, whatever the masters do: from every state, under `wrap`, some later step, taken by the devices
themselves, ticks it; and under either choice, from below the top of the range, some later step ticks
it, unless one is a store to an MTIME region on its cell (which may take it to the top, where it stays
under `stuck`). It rests on the model's scheduler (log 5, DESIGN CHOICE), which gives the fairness R106
asks for. -/
def Obligations.EveryCellTicksAgain : Prop :=
  ∀ (s : State) (c : Nat), s.RunUnmarked → c ∈ cells s.cfg →
    (s.cfg.mtimeWrap = .wrap →
      ∃ n t u, Host.Core.run core n s = .next t ∧ t.agenda = [] ∧ step t = .next u ∧
        u.getMtime c = t.getMtime c + 1#64) ∧
    (s.getMtime c ≠ BitVec.allOnes 64 →
      ∃ n t u, Host.Core.run core n s = .next t ∧ step t = .next u ∧
        (u.getMtime c = t.getMtime c + 1#64 ∨
          ∃ a rest k v t' d off, t.agenda = .bus a :: rest ∧ a.op = .store k v ∧
            locate t.cfg a.addr = some (.mtime t', off) ∧ t.cfg.mtimers[t']? = some d ∧
            d.mtimeCell = c))
end

