-- ==== Sys2Proof/Laws/State.lean ====
section
/-! SUPPORT. One lemma per field of State per update: each update writes its own field and no other. -/

namespace Sys2Proof.Machine

variable (s : State)

/-! `State.setMtime` -/

@[simp] theorem State.setMtime_cfg (c : Nat) (v : Word64) :
    (s.setMtime c v).cfg = s.cfg := rfl
@[simp] theorem State.setMtime_mtime (c : Nat) (v : Word64) :
    (s.setMtime c v).mtime = Bank.write 0#64 s.mtime c v := rfl
@[simp] theorem State.setMtime_mtimecmp (c : Nat) (v : Word64) :
    (s.setMtime c v).mtimecmp = s.mtimecmp := rfl
@[simp] theorem State.setMtime_msip (c : Nat) (v : Word64) :
    (s.setMtime c v).msip = s.msip := rfl
@[simp] theorem State.setMtime_inflight (c : Nat) (v : Word64) :
    (s.setMtime c v).inflight = s.inflight := rfl
@[simp] theorem State.setMtime_refusalMark (c : Nat) (v : Word64) :
    (s.setMtime c v).refusalMark = s.refusalMark := rfl
@[simp] theorem State.setMtime_faultMark (c : Nat) (v : Word64) :
    (s.setMtime c v).faultMark = s.faultMark := rfl
@[simp] theorem State.setMtime_ssip (c : Nat) (v : Word64) :
    (s.setMtime c v).ssip = s.ssip := rfl
@[simp] theorem State.setMtime_agenda (c : Nat) (v : Word64) :
    (s.setMtime c v).agenda = s.agenda := rfl
@[simp] theorem State.setMtime_master (c : Nat) (v : Word64) :
    (s.setMtime c v).master = s.master := rfl
@[simp] theorem State.setMtime_resp (c : Nat) (v : Word64) :
    (s.setMtime c v).resp = s.resp := rfl
@[simp] theorem State.setMtime_mipView (c : Nat) (v : Word64) :
    (s.setMtime c v).mipView = s.mipView := rfl
@[simp] theorem State.setMtime_draws (c : Nat) (v : Word64) :
    (s.setMtime c v).draws = s.draws := rfl
@[simp] theorem State.setMtime_turn (c : Nat) (v : Word64) :
    (s.setMtime c v).turn = s.turn := rfl
@[simp] theorem State.setMtime_patience (c : Nat) (v : Word64) :
    (s.setMtime c v).patience = s.patience := rfl

/-! `State.setCompare` -/

@[simp] theorem State.setCompare_cfg (t : Nat) (i : HartIndex) (c : Compare) :
    (s.setCompare t i c).cfg = s.cfg := rfl
@[simp] theorem State.setCompare_mtime (t : Nat) (i : HartIndex) (c : Compare) :
    (s.setCompare t i c).mtime = s.mtime := rfl
@[simp] theorem State.setCompare_mtimecmp (t : Nat) (i : HartIndex) (c : Compare) :
    (s.setCompare t i c).mtimecmp = Bank.write Compare.unknown s.mtimecmp (slotKey t i) c := rfl
@[simp] theorem State.setCompare_msip (t : Nat) (i : HartIndex) (c : Compare) :
    (s.setCompare t i c).msip = s.msip := rfl
@[simp] theorem State.setCompare_inflight (t : Nat) (i : HartIndex) (c : Compare) :
    (s.setCompare t i c).inflight = s.inflight := rfl
@[simp] theorem State.setCompare_refusalMark (t : Nat) (i : HartIndex) (c : Compare) :
    (s.setCompare t i c).refusalMark = s.refusalMark := rfl
@[simp] theorem State.setCompare_faultMark (t : Nat) (i : HartIndex) (c : Compare) :
    (s.setCompare t i c).faultMark = s.faultMark := rfl
@[simp] theorem State.setCompare_ssip (t : Nat) (i : HartIndex) (c : Compare) :
    (s.setCompare t i c).ssip = s.ssip := rfl
@[simp] theorem State.setCompare_agenda (t : Nat) (i : HartIndex) (c : Compare) :
    (s.setCompare t i c).agenda = s.agenda := rfl
@[simp] theorem State.setCompare_master (t : Nat) (i : HartIndex) (c : Compare) :
    (s.setCompare t i c).master = s.master := rfl
@[simp] theorem State.setCompare_resp (t : Nat) (i : HartIndex) (c : Compare) :
    (s.setCompare t i c).resp = s.resp := rfl
@[simp] theorem State.setCompare_mipView (t : Nat) (i : HartIndex) (c : Compare) :
    (s.setCompare t i c).mipView = s.mipView := rfl
@[simp] theorem State.setCompare_draws (t : Nat) (i : HartIndex) (c : Compare) :
    (s.setCompare t i c).draws = s.draws := rfl
@[simp] theorem State.setCompare_turn (t : Nat) (i : HartIndex) (c : Compare) :
    (s.setCompare t i c).turn = s.turn := rfl
@[simp] theorem State.setCompare_patience (t : Nat) (i : HartIndex) (c : Compare) :
    (s.setCompare t i c).patience = s.patience := rfl

/-! `State.setMsip` -/

@[simp] theorem State.setMsip_cfg (m : Nat) (i : HartIndex) (b : Bool) :
    (s.setMsip m i b).cfg = s.cfg := rfl
@[simp] theorem State.setMsip_mtime (m : Nat) (i : HartIndex) (b : Bool) :
    (s.setMsip m i b).mtime = s.mtime := rfl
@[simp] theorem State.setMsip_mtimecmp (m : Nat) (i : HartIndex) (b : Bool) :
    (s.setMsip m i b).mtimecmp = s.mtimecmp := rfl
@[simp] theorem State.setMsip_msip (m : Nat) (i : HartIndex) (b : Bool) :
    (s.setMsip m i b).msip = Bank.write false s.msip (slotKey m i) b := rfl
@[simp] theorem State.setMsip_inflight (m : Nat) (i : HartIndex) (b : Bool) :
    (s.setMsip m i b).inflight = s.inflight := rfl
@[simp] theorem State.setMsip_refusalMark (m : Nat) (i : HartIndex) (b : Bool) :
    (s.setMsip m i b).refusalMark = s.refusalMark := rfl
@[simp] theorem State.setMsip_faultMark (m : Nat) (i : HartIndex) (b : Bool) :
    (s.setMsip m i b).faultMark = s.faultMark := rfl
@[simp] theorem State.setMsip_ssip (m : Nat) (i : HartIndex) (b : Bool) :
    (s.setMsip m i b).ssip = s.ssip := rfl
@[simp] theorem State.setMsip_agenda (m : Nat) (i : HartIndex) (b : Bool) :
    (s.setMsip m i b).agenda = s.agenda := rfl
@[simp] theorem State.setMsip_master (m : Nat) (i : HartIndex) (b : Bool) :
    (s.setMsip m i b).master = s.master := rfl
@[simp] theorem State.setMsip_resp (m : Nat) (i : HartIndex) (b : Bool) :
    (s.setMsip m i b).resp = s.resp := rfl
@[simp] theorem State.setMsip_mipView (m : Nat) (i : HartIndex) (b : Bool) :
    (s.setMsip m i b).mipView = s.mipView := rfl
@[simp] theorem State.setMsip_draws (m : Nat) (i : HartIndex) (b : Bool) :
    (s.setMsip m i b).draws = s.draws := rfl
@[simp] theorem State.setMsip_turn (m : Nat) (i : HartIndex) (b : Bool) :
    (s.setMsip m i b).turn = s.turn := rfl
@[simp] theorem State.setMsip_patience (m : Nat) (i : HartIndex) (b : Bool) :
    (s.setMsip m i b).patience = s.patience := rfl

/-! `State.setInflight` -/

@[simp] theorem State.setInflight_cfg (d : Nat) (i : HartIndex) (n : Nat) :
    (s.setInflight d i n).cfg = s.cfg := rfl
@[simp] theorem State.setInflight_mtime (d : Nat) (i : HartIndex) (n : Nat) :
    (s.setInflight d i n).mtime = s.mtime := rfl
@[simp] theorem State.setInflight_mtimecmp (d : Nat) (i : HartIndex) (n : Nat) :
    (s.setInflight d i n).mtimecmp = s.mtimecmp := rfl
@[simp] theorem State.setInflight_msip (d : Nat) (i : HartIndex) (n : Nat) :
    (s.setInflight d i n).msip = s.msip := rfl
@[simp] theorem State.setInflight_inflight (d : Nat) (i : HartIndex) (n : Nat) :
    (s.setInflight d i n).inflight = Bank.write 0 s.inflight (slotKey d i) n := rfl
@[simp] theorem State.setInflight_refusalMark (d : Nat) (i : HartIndex) (n : Nat) :
    (s.setInflight d i n).refusalMark = s.refusalMark := rfl
@[simp] theorem State.setInflight_faultMark (d : Nat) (i : HartIndex) (n : Nat) :
    (s.setInflight d i n).faultMark = s.faultMark := rfl
@[simp] theorem State.setInflight_ssip (d : Nat) (i : HartIndex) (n : Nat) :
    (s.setInflight d i n).ssip = s.ssip := rfl
@[simp] theorem State.setInflight_agenda (d : Nat) (i : HartIndex) (n : Nat) :
    (s.setInflight d i n).agenda = s.agenda := rfl
@[simp] theorem State.setInflight_master (d : Nat) (i : HartIndex) (n : Nat) :
    (s.setInflight d i n).master = s.master := rfl
@[simp] theorem State.setInflight_resp (d : Nat) (i : HartIndex) (n : Nat) :
    (s.setInflight d i n).resp = s.resp := rfl
@[simp] theorem State.setInflight_mipView (d : Nat) (i : HartIndex) (n : Nat) :
    (s.setInflight d i n).mipView = s.mipView := rfl
@[simp] theorem State.setInflight_draws (d : Nat) (i : HartIndex) (n : Nat) :
    (s.setInflight d i n).draws = s.draws := rfl
@[simp] theorem State.setInflight_turn (d : Nat) (i : HartIndex) (n : Nat) :
    (s.setInflight d i n).turn = s.turn := rfl
@[simp] theorem State.setInflight_patience (d : Nat) (i : HartIndex) (n : Nat) :
    (s.setInflight d i n).patience = s.patience := rfl

/-! `State.setSsip` -/

@[simp] theorem State.setSsip_cfg (h : Nat) (b : Bool) :
    (s.setSsip h b).cfg = s.cfg := rfl
@[simp] theorem State.setSsip_mtime (h : Nat) (b : Bool) :
    (s.setSsip h b).mtime = s.mtime := rfl
@[simp] theorem State.setSsip_mtimecmp (h : Nat) (b : Bool) :
    (s.setSsip h b).mtimecmp = s.mtimecmp := rfl
@[simp] theorem State.setSsip_msip (h : Nat) (b : Bool) :
    (s.setSsip h b).msip = s.msip := rfl
@[simp] theorem State.setSsip_inflight (h : Nat) (b : Bool) :
    (s.setSsip h b).inflight = s.inflight := rfl
@[simp] theorem State.setSsip_refusalMark (h : Nat) (b : Bool) :
    (s.setSsip h b).refusalMark = s.refusalMark := rfl
@[simp] theorem State.setSsip_faultMark (h : Nat) (b : Bool) :
    (s.setSsip h b).faultMark = s.faultMark := rfl
@[simp] theorem State.setSsip_ssip (h : Nat) (b : Bool) :
    (s.setSsip h b).ssip = Bank.write none s.ssip h (some b) := rfl
@[simp] theorem State.setSsip_agenda (h : Nat) (b : Bool) :
    (s.setSsip h b).agenda = s.agenda := rfl
@[simp] theorem State.setSsip_master (h : Nat) (b : Bool) :
    (s.setSsip h b).master = s.master := rfl
@[simp] theorem State.setSsip_resp (h : Nat) (b : Bool) :
    (s.setSsip h b).resp = s.resp := rfl
@[simp] theorem State.setSsip_mipView (h : Nat) (b : Bool) :
    (s.setSsip h b).mipView = s.mipView := rfl
@[simp] theorem State.setSsip_draws (h : Nat) (b : Bool) :
    (s.setSsip h b).draws = s.draws := rfl
@[simp] theorem State.setSsip_turn (h : Nat) (b : Bool) :
    (s.setSsip h b).turn = s.turn := rfl
@[simp] theorem State.setSsip_patience (h : Nat) (b : Bool) :
    (s.setSsip h b).patience = s.patience := rfl

/-! `State.drawn` -/

@[simp] theorem State.drawn_cfg (n : Nat) :
    (s.drawn n).cfg = s.cfg := rfl
@[simp] theorem State.drawn_mtime (n : Nat) :
    (s.drawn n).mtime = s.mtime := rfl
@[simp] theorem State.drawn_mtimecmp (n : Nat) :
    (s.drawn n).mtimecmp = s.mtimecmp := rfl
@[simp] theorem State.drawn_msip (n : Nat) :
    (s.drawn n).msip = s.msip := rfl
@[simp] theorem State.drawn_inflight (n : Nat) :
    (s.drawn n).inflight = s.inflight := rfl
@[simp] theorem State.drawn_refusalMark (n : Nat) :
    (s.drawn n).refusalMark = s.refusalMark := rfl
@[simp] theorem State.drawn_faultMark (n : Nat) :
    (s.drawn n).faultMark = s.faultMark := rfl
@[simp] theorem State.drawn_ssip (n : Nat) :
    (s.drawn n).ssip = s.ssip := rfl
@[simp] theorem State.drawn_agenda (n : Nat) :
    (s.drawn n).agenda = s.agenda := rfl
@[simp] theorem State.drawn_master (n : Nat) :
    (s.drawn n).master = s.master := rfl
@[simp] theorem State.drawn_resp (n : Nat) :
    (s.drawn n).resp = s.resp := rfl
@[simp] theorem State.drawn_mipView (n : Nat) :
    (s.drawn n).mipView = s.mipView := rfl
@[simp] theorem State.drawn_draws (n : Nat) :
    (s.drawn n).draws = s.draws + n := rfl
@[simp] theorem State.drawn_turn (n : Nat) :
    (s.drawn n).turn = s.turn := rfl
@[simp] theorem State.drawn_patience (n : Nat) :
    (s.drawn n).patience = s.patience := rfl

/-! `State.respond` -/

@[simp] theorem State.respond_cfg (r : Response) :
    (s.respond r).cfg = s.cfg := rfl
@[simp] theorem State.respond_mtime (r : Response) :
    (s.respond r).mtime = s.mtime := rfl
@[simp] theorem State.respond_mtimecmp (r : Response) :
    (s.respond r).mtimecmp = s.mtimecmp := rfl
@[simp] theorem State.respond_msip (r : Response) :
    (s.respond r).msip = s.msip := rfl
@[simp] theorem State.respond_inflight (r : Response) :
    (s.respond r).inflight = s.inflight := rfl
@[simp] theorem State.respond_refusalMark (r : Response) :
    (s.respond r).refusalMark = s.refusalMark := rfl
@[simp] theorem State.respond_faultMark (r : Response) :
    (s.respond r).faultMark = s.faultMark := rfl
@[simp] theorem State.respond_ssip (r : Response) :
    (s.respond r).ssip = s.ssip := rfl
@[simp] theorem State.respond_agenda (r : Response) :
    (s.respond r).agenda = s.agenda := rfl
@[simp] theorem State.respond_master (r : Response) :
    (s.respond r).master = s.master := rfl
@[simp] theorem State.respond_resp (r : Response) :
    (s.respond r).resp = some r := rfl
@[simp] theorem State.respond_mipView (r : Response) :
    (s.respond r).mipView = s.mipView := rfl
@[simp] theorem State.respond_draws (r : Response) :
    (s.respond r).draws = s.draws := rfl
@[simp] theorem State.respond_turn (r : Response) :
    (s.respond r).turn = s.turn := rfl
@[simp] theorem State.respond_patience (r : Response) :
    (s.respond r).patience = s.patience := rfl

/-! Each register through the updates of the others -/

@[simp] theorem State.getMtime_setCompare (t : Nat) (i : HartIndex) (c : Compare) (c' : Nat) :
    (s.setCompare t i c).getMtime c' = s.getMtime c' := rfl
@[simp] theorem State.getMtime_setMsip (m : Nat) (i : HartIndex) (b : Bool) (c' : Nat) :
    (s.setMsip m i b).getMtime c' = s.getMtime c' := rfl
@[simp] theorem State.getMtime_setInflight (d : Nat) (i : HartIndex) (n : Nat) (c' : Nat) :
    (s.setInflight d i n).getMtime c' = s.getMtime c' := rfl
@[simp] theorem State.getMtime_setSsip (h : Nat) (b : Bool) (c' : Nat) :
    (s.setSsip h b).getMtime c' = s.getMtime c' := rfl
@[simp] theorem State.getMtime_drawn (n : Nat) (c' : Nat) :
    (s.drawn n).getMtime c' = s.getMtime c' := rfl
@[simp] theorem State.getMtime_respond (r : Response) (c' : Nat) :
    (s.respond r).getMtime c' = s.getMtime c' := rfl

@[simp] theorem State.getCompare_setMtime (c : Nat) (v : Word64) (t' : Nat) (i' : HartIndex) :
    (s.setMtime c v).getCompare t' i' = s.getCompare t' i' := rfl
@[simp] theorem State.getCompare_setMsip (m : Nat) (i : HartIndex) (b : Bool) (t' : Nat) (i' : HartIndex) :
    (s.setMsip m i b).getCompare t' i' = s.getCompare t' i' := rfl
@[simp] theorem State.getCompare_setInflight (d : Nat) (i : HartIndex) (n : Nat) (t' : Nat) (i' : HartIndex) :
    (s.setInflight d i n).getCompare t' i' = s.getCompare t' i' := rfl
@[simp] theorem State.getCompare_setSsip (h : Nat) (b : Bool) (t' : Nat) (i' : HartIndex) :
    (s.setSsip h b).getCompare t' i' = s.getCompare t' i' := rfl
@[simp] theorem State.getCompare_drawn (n : Nat) (t' : Nat) (i' : HartIndex) :
    (s.drawn n).getCompare t' i' = s.getCompare t' i' := rfl
@[simp] theorem State.getCompare_respond (r : Response) (t' : Nat) (i' : HartIndex) :
    (s.respond r).getCompare t' i' = s.getCompare t' i' := rfl

@[simp] theorem State.getMsip_setMtime (c : Nat) (v : Word64) (m' : Nat) (i' : HartIndex) :
    (s.setMtime c v).getMsip m' i' = s.getMsip m' i' := rfl
@[simp] theorem State.getMsip_setCompare (t : Nat) (i : HartIndex) (c : Compare) (m' : Nat) (i' : HartIndex) :
    (s.setCompare t i c).getMsip m' i' = s.getMsip m' i' := rfl
@[simp] theorem State.getMsip_setInflight (d : Nat) (i : HartIndex) (n : Nat) (m' : Nat) (i' : HartIndex) :
    (s.setInflight d i n).getMsip m' i' = s.getMsip m' i' := rfl
@[simp] theorem State.getMsip_setSsip (h : Nat) (b : Bool) (m' : Nat) (i' : HartIndex) :
    (s.setSsip h b).getMsip m' i' = s.getMsip m' i' := rfl
@[simp] theorem State.getMsip_drawn (n : Nat) (m' : Nat) (i' : HartIndex) :
    (s.drawn n).getMsip m' i' = s.getMsip m' i' := rfl
@[simp] theorem State.getMsip_respond (r : Response) (m' : Nat) (i' : HartIndex) :
    (s.respond r).getMsip m' i' = s.getMsip m' i' := rfl

@[simp] theorem State.getInflight_setMtime (c : Nat) (v : Word64) (d' : Nat) (i' : HartIndex) :
    (s.setMtime c v).getInflight d' i' = s.getInflight d' i' := rfl
@[simp] theorem State.getInflight_setCompare (t : Nat) (i : HartIndex) (c : Compare) (d' : Nat) (i' : HartIndex) :
    (s.setCompare t i c).getInflight d' i' = s.getInflight d' i' := rfl
@[simp] theorem State.getInflight_setMsip (m : Nat) (i : HartIndex) (b : Bool) (d' : Nat) (i' : HartIndex) :
    (s.setMsip m i b).getInflight d' i' = s.getInflight d' i' := rfl
@[simp] theorem State.getInflight_setSsip (h : Nat) (b : Bool) (d' : Nat) (i' : HartIndex) :
    (s.setSsip h b).getInflight d' i' = s.getInflight d' i' := rfl
@[simp] theorem State.getInflight_drawn (n : Nat) (d' : Nat) (i' : HartIndex) :
    (s.drawn n).getInflight d' i' = s.getInflight d' i' := rfl
@[simp] theorem State.getInflight_respond (r : Response) (d' : Nat) (i' : HartIndex) :
    (s.respond r).getInflight d' i' = s.getInflight d' i' := rfl

@[simp] theorem State.getSsip_setMtime (c : Nat) (v : Word64) (h' : Nat) :
    (s.setMtime c v).getSsip h' = s.getSsip h' := rfl
@[simp] theorem State.getSsip_setCompare (t : Nat) (i : HartIndex) (c : Compare) (h' : Nat) :
    (s.setCompare t i c).getSsip h' = s.getSsip h' := rfl
@[simp] theorem State.getSsip_setMsip (m : Nat) (i : HartIndex) (b : Bool) (h' : Nat) :
    (s.setMsip m i b).getSsip h' = s.getSsip h' := rfl
@[simp] theorem State.getSsip_setInflight (d : Nat) (i : HartIndex) (n : Nat) (h' : Nat) :
    (s.setInflight d i n).getSsip h' = s.getSsip h' := rfl
@[simp] theorem State.getSsip_drawn (n : Nat) (h' : Nat) :
    (s.drawn n).getSsip h' = s.getSsip h' := rfl
@[simp] theorem State.getSsip_respond (r : Response) (h' : Nat) :
    (s.respond r).getSsip h' = s.getSsip h' := rfl

/-! Placing an access on the bus changes the agenda and nothing else. -/

theorem State.withDescriptor_eq (d : Descriptor) :
    s.withDescriptor d =
      { s with agenda := .bus ⟨freeMaster s.cfg, d.addr s.cfg, d.op⟩ :: s.agenda } := rfl

end Sys2Proof.Machine
end

