-- ==== Sys2Proof/Laws/Bank.lean ====
section
/-! SUPPORT. The laws of a register bank: a read after a write, writes at other keys, and that every
write keeps the canonical form; with these, the same for each register. -/

namespace Sys2Proof.Machine

variable {α : Type}

theorem Bank.read_place_same (dflt : α) (k : Nat) (v : α) (b : Bank α)
    (h : ∀ e ∈ b, e.1 ≠ k) : Bank.read dflt (Bank.place k v b) k = v := by
  induction b with
  | nil => simp [Bank.place, Bank.read]
  | cons e b ih =>
    have he : e.1 ≠ k := h e (by simp)
    have hb := ih fun e' he' => h e' (by simp [he'])
    by_cases hlt : k < e.1 <;> simp [Bank.place, Bank.read, hlt, he, hb]

theorem Bank.read_place_other (dflt : α) {k k' : Nat} (v : α) (b : Bank α) (hk : k' ≠ k) :
    Bank.read dflt (Bank.place k v b) k' = Bank.read dflt b k' := by
  induction b with
  | nil => simp [Bank.place, Bank.read, hk.symm]
  | cons e b ih =>
    by_cases hlt : k < e.1
    · simp [Bank.place, Bank.read, hlt, hk.symm]
    · simp [Bank.place, Bank.read, hlt, ih]

theorem Bank.erase_ne (k : Nat) (b : Bank α) : ∀ e ∈ Bank.erase k b, e.1 ≠ k := by
  intro e he
  simpa using (List.mem_filter.mp he).2

theorem Bank.read_none (dflt : α) {k : Nat} (b : Bank α) (h : ∀ e ∈ b, e.1 ≠ k) :
    Bank.read dflt b k = dflt := by
  induction b with
  | nil => rfl
  | cons e b ih =>
    simp [Bank.read, h e (by simp), ih fun e' he' => h e' (by simp [he'])]

theorem Bank.read_erase_other (dflt : α) {k k' : Nat} (b : Bank α) (hk : k' ≠ k) :
    Bank.read dflt (Bank.erase k b) k' = Bank.read dflt b k' := by
  induction b with
  | nil => rfl
  | cons e b ih =>
    have ih' : Bank.read dflt (b.filter fun e => decide (e.1 ≠ k)) k' = Bank.read dflt b k' := ih
    by_cases he : e.1 = k
    · have hne : e.1 ≠ k' := fun h => hk (h.symm.trans he)
      rw [Bank.erase, List.filter_cons_of_neg (by simp [he]), ih']
      simp [Bank.read, hne]
    · rw [Bank.erase, List.filter_cons_of_pos (by simp [he])]
      simp only [Bank.read, ih']

/-- A read after a write at the same key gives the value written. -/
theorem Bank.read_write_same [DecidableEq α] (dflt : α) (b : Bank α) (k : Nat) (v : α) :
    Bank.read dflt (Bank.write dflt b k v) k = v := by
  by_cases hv : v = dflt
  · simp [Bank.write, hv, Bank.read_none dflt _ (Bank.erase_ne k b)]
  · simp [Bank.write, hv, Bank.read_place_same dflt k v _ (Bank.erase_ne k b)]

/-- A write leaves every other key alone. -/
theorem Bank.read_write_other [DecidableEq α] (dflt : α) (b : Bank α) {k k' : Nat} (v : α)
    (hk : k' ≠ k) : Bank.read dflt (Bank.write dflt b k v) k' = Bank.read dflt b k' := by
  by_cases hv : v = dflt
  · simp [Bank.write, hv, Bank.read_erase_other dflt b hk]
  · simp [Bank.write, hv, Bank.read_place_other dflt v _ hk, Bank.read_erase_other dflt b hk]

theorem Bank.mem_place {k : Nat} {v : α} {b : Bank α} {e : Nat × α} :
    e ∈ Bank.place k v b ↔ e = (k, v) ∨ e ∈ b := by
  induction b with
  | nil => simp [Bank.place]
  | cons f b ih =>
    by_cases hlt : k < f.1
    · simp [Bank.place, hlt]
    · simp [Bank.place, hlt, ih, or_left_comm]

/-- An entry after a write is the written one, or an old one at another key. -/
theorem Bank.mem_write [DecidableEq α] {dflt : α} {b : Bank α} {k : Nat} {v : α} {e : Nat × α}
    (he : e ∈ Bank.write dflt b k v) : (e = (k, v) ∧ v ≠ dflt) ∨ (e ∈ b ∧ e.1 ≠ k) := by
  by_cases hv : v = dflt
  · simp only [Bank.write, hv, if_true, Bank.erase, List.mem_filter, decide_eq_true_eq] at he
    exact .inr he
  · simp only [Bank.write, hv, if_false, Bank.mem_place, Bank.erase, List.mem_filter,
      decide_eq_true_eq] at he
    exact he.imp (fun h => ⟨h, hv⟩) id

theorem Bank.place_sorted {k : Nat} {v : α} {b : Bank α}
    (hs : b.Pairwise fun e f => e.1 < f.1) (hne : ∀ e ∈ b, e.1 ≠ k) :
    (Bank.place k v b).Pairwise fun e f => e.1 < f.1 := by
  induction b with
  | nil => simp [Bank.place]
  | cons f b ih =>
    obtain ⟨hf, hb⟩ := List.pairwise_cons.mp hs
    have hfk : f.1 ≠ k := hne f (by simp)
    by_cases hlt : k < f.1
    · simp only [Bank.place, hlt, if_true, List.pairwise_cons]
      refine ⟨fun e he => ?_, hf, hb⟩
      rcases List.mem_cons.mp he with rfl | he
      · exact hlt
      · exact hlt.trans (hf e he)
    · simp only [Bank.place, hlt, if_false, List.pairwise_cons]
      refine ⟨fun e he => ?_, ih hb fun e he => hne e (by simp [he])⟩
      rcases Bank.mem_place.mp he with rfl | he
      · show f.1 < k
        omega
      · exact hf e he

/-- Every write keeps the canonical form. -/
theorem Bank.write_wf [DecidableEq α] {dflt : α} {b : Bank α} (k : Nat) (v : α)
    (h : Bank.wf dflt b) : Bank.wf dflt (Bank.write dflt b k v) := by
  have hs : (Bank.erase k b).Pairwise fun e f => e.1 < f.1 := h.1.filter _
  refine ⟨?_, fun e he => ?_⟩
  · by_cases hv : v = dflt
    · simpa [Bank.write, hv] using hs
    · simpa [Bank.write, hv] using Bank.place_sorted hs (Bank.erase_ne k b)
  · rcases Bank.mem_write he with ⟨rfl, hv⟩ | ⟨he, -⟩
    · exact hv
    · exact h.2 e he

/-! ### Keys -/

/-- Different registers have different keys. -/
theorem slotKey_inj {d d' : Nat} {i i' : HartIndex} :
    slotKey d i = slotKey d' i' ↔ d = d' ∧ i = i' := by
  constructor
  · intro h
    have h1 := i.isLt
    have h2 := i'.isLt
    simp only [slotKey] at h
    exact ⟨by omega, BitVec.eq_of_toNat_eq (by omega)⟩
  · rintro ⟨rfl, rfl⟩
    rfl

theorem slotKey_ne {d d' : Nat} {i i' : HartIndex} (h : ¬ (d = d' ∧ i = i')) :
    slotKey d i ≠ slotKey d' i' := fun e => h (slotKey_inj.mp e)

/-! ### Each register: read after write, and other registers -/

variable (s : State)

@[simp] theorem State.getMtime_setMtime_same (c : Nat) (v : Word64) :
    (s.setMtime c v).getMtime c = v := Bank.read_write_same ..

theorem State.getMtime_setMtime_other {c c' : Nat} (v : Word64) (h : c' ≠ c) :
    (s.setMtime c v).getMtime c' = s.getMtime c' := Bank.read_write_other _ _ _ h

@[simp] theorem State.getCompare_setCompare_same (t : Nat) (i : HartIndex) (c : Compare) :
    (s.setCompare t i c).getCompare t i = c := Bank.read_write_same ..

theorem State.getCompare_setCompare_other {t t' : Nat} {i i' : HartIndex} (c : Compare)
    (h : ¬ (t' = t ∧ i' = i)) : (s.setCompare t i c).getCompare t' i' = s.getCompare t' i' :=
  Bank.read_write_other _ _ _ (slotKey_ne h)

@[simp] theorem State.getMsip_setMsip_same (m : Nat) (i : HartIndex) (b : Bool) :
    (s.setMsip m i b).getMsip m i = b := Bank.read_write_same ..

theorem State.getMsip_setMsip_other {m m' : Nat} {i i' : HartIndex} (b : Bool)
    (h : ¬ (m' = m ∧ i' = i)) : (s.setMsip m i b).getMsip m' i' = s.getMsip m' i' :=
  Bank.read_write_other _ _ _ (slotKey_ne h)

@[simp] theorem State.getInflight_setInflight_same (d : Nat) (i : HartIndex) (n : Nat) :
    (s.setInflight d i n).getInflight d i = n := Bank.read_write_same ..

theorem State.getInflight_setInflight_other {d d' : Nat} {i i' : HartIndex} (n : Nat)
    (h : ¬ (d' = d ∧ i' = i)) : (s.setInflight d i n).getInflight d' i' = s.getInflight d' i' :=
  Bank.read_write_other _ _ _ (slotKey_ne h)

@[simp] theorem State.getSsip_setSsip_same (h : Nat) (b : Bool) :
    (s.setSsip h b).getSsip h = b :=
  congrArg (Option.getD · (Config.initialSsip h))
    (Bank.read_write_same (none : Option Bool) s.ssip h (some b))

theorem State.getSsip_setSsip_other {h h' : Nat} (b : Bool) (hne : h' ≠ h) :
    (s.setSsip h b).getSsip h' = s.getSsip h' :=
  congrArg (Option.getD · (Config.initialSsip h'))
    (Bank.read_write_other (none : Option Bool) s.ssip (some b) hne)

end Sys2Proof.Machine
end

