-- ==== Sys2Proof/Laws/Encoding.lean ====
section
/-! SUPPORT. The offset formats as bits and as numbers: what the encoder puts into an offset is what the
decoder's fields take out, and which regions a configuration has. -/

namespace Sys2Proof

/-- Concatenation, as a number: the high part scaled, plus the low part. -/
theorem toNat_append_eq {m n : Nat} (x : BitVec m) (y : BitVec n) :
    (x ++ y).toNat = 2 ^ n * x.toNat + y.toNat := by
  rw [BitVec.toNat_append, ← Nat.shiftLeft_add_eq_or_of_lt y.isLt, Nat.shiftLeft_eq, Nat.mul_comm]

theorem offsetC_toNat (i : HartIndex) (l : Lane) :
    (offsetC i l).toNat = 8 * i.toNat + l.lowBits.toNat := by
  rw [offsetC, toNat_append_eq, toNat_append_eq]
  simp

theorem offsetI_toNat (i : HartIndex) : (offsetI i).toNat = 4 * i.toNat := by
  rw [offsetI, toNat_append_eq, toNat_append_eq]
  simp

theorem offsetT_toNat (l : Lane) : (offsetT l).toNat = l.lowBits.toNat := by
  cases l <;> decide

/-- Format C's index field is the index, bit by bit. -/
theorem offsetC_index (i : HartIndex) (l : Lane) : (offsetC i l).extractLsb' 3 12 = i := by
  apply BitVec.eq_of_toNat_eq
  have h := offsetC_toNat i l
  have hi := i.isLt
  rw [BitVec.extractLsb'_toNat, h, Nat.shiftRight_eq_div_pow]
  cases l <;> simp [Lane.lowBits] <;> omega

theorem offsetC_low (i : HartIndex) (l : Lane) : (offsetC i l).extractLsb' 0 3 = l.lowBits := by
  apply BitVec.eq_of_toNat_eq
  have h := offsetC_toNat i l
  rw [BitVec.extractLsb'_toNat, h]
  cases l <;> simp [Lane.lowBits]

theorem offsetI_index (i : HartIndex) : (offsetI i).extractLsb' 2 12 = i := by
  apply BitVec.eq_of_toNat_eq
  have h := offsetI_toNat i
  have hi := i.isLt
  rw [BitVec.extractLsb'_toNat, h, Nat.shiftRight_eq_div_pow]
  omega

/-- A size and low bits name the part whose size and low bits they are. -/
theorem laneAt_lane (l : Lane) : laneAt l.bytes l.lowBits = some l := by cases l <;> decide

theorem laneAt_some {n : Nat} {b : BitVec 3} {l : Lane} (h : laneAt n b = some l) :
    n = l.bytes ∧ b = l.lowBits := by
  unfold laneAt at h
  split at h
  · split at h
    · cases h
      exact ⟨‹_›, ‹_›⟩
    · cases h
  · split at h
    · split at h
      · cases h
        exact ⟨‹_›, ‹_›⟩
      · split at h
        · cases h
          exact ⟨‹_›, ‹_›⟩
        · cases h
    · cases h

theorem writeDataAt_value (w : WriteData) : writeDataAt w.lane w.value = w := by
  cases w <;> simp [writeDataAt, WriteData.lane, WriteData.value]

/-! ### Masks -/

/-- An offset is the concatenation of the three fields of format I. -/
theorem splitI (off : Offset) :
    off = off.extractLsb' 14 2 ++ off.extractLsb' 2 12 ++ off.extractLsb' 0 2 := by
  apply BitVec.eq_of_toNat_eq
  have := off.isLt
  rw [toNat_append_eq, toNat_append_eq]
  simp only [BitVec.extractLsb'_toNat, Nat.shiftRight_eq_div_pow]
  omega

/-- An offset is the concatenation of the three fields of format C. -/
theorem splitC (off : Offset) :
    off = off.extractLsb' 15 1 ++ off.extractLsb' 3 12 ++ off.extractLsb' 0 3 := by
  apply BitVec.eq_of_toNat_eq
  have := off.isLt
  rw [toNat_append_eq, toNat_append_eq]
  simp only [BitVec.extractLsb'_toNat, Nat.shiftRight_eq_div_pow]
  omega

theorem append_eq_zero {m n : Nat} {x : BitVec m} {y : BitVec n} :
    x ++ y = 0#(m + n) ↔ x = 0#m ∧ y = 0#n := by
  constructor
  · intro h
    have h' := congrArg BitVec.toNat h
    rw [toNat_append_eq, BitVec.toNat_ofNat, Nat.zero_mod] at h'
    have hp : 0 < 2 ^ n := Nat.two_pow_pos n
    have hx : x.toNat = 0 := by
      by_contra hne
      have := Nat.mul_pos hp (Nat.pos_of_ne_zero hne)
      omega
    exact ⟨BitVec.eq_of_toNat_eq (by simp [hx]), BitVec.eq_of_toNat_eq (by rw [BitVec.toNat_ofNat, Nat.zero_mod]; omega)⟩
  · rintro ⟨rfl, rfl⟩
    simp

/-- Format I's mask: the offset is that of some index. -/
theorem maskI (off : Offset) :
    off &&& 0xC003#16 = 0#16 ↔ off = offsetI (off.extractLsb' 2 12) := by
  have hm : (0xC003#16 : Offset) = 3#2 ++ 0#12 ++ 3#2 := by decide
  have h3 : ∀ b : BitVec 2, b &&& 3#2 = b := by decide
  have hz : (0#16 : Offset) = 0#(2 + 12 + 2) := rfl
  conv_lhs => rw [splitI off, hm, BitVec.and_append, BitVec.and_append, h3, h3, hz,
    append_eq_zero, append_eq_zero]
  constructor
  · rintro ⟨⟨h, -⟩, h'⟩
    conv_lhs => rw [splitI off, h, h']
    rfl
  · intro h
    have ht := congrArg BitVec.toNat h
    rw [offsetI_toNat, BitVec.extractLsb'_toNat, Nat.shiftRight_eq_div_pow] at ht
    have := off.isLt
    refine ⟨⟨?_, by simp⟩, ?_⟩ <;> apply BitVec.eq_of_toNat_eq <;>
      rw [BitVec.extractLsb'_toNat, Nat.shiftRight_eq_div_pow] <;> simp <;> omega

/-- Format C's mask and the low bits of a part: the offset is that of some index and the part. -/
theorem maskC (off : Offset) (l : Lane) (h : off &&& 0x8000#16 = 0#16)
    (hl : off.extractLsb' 0 3 = l.lowBits) : off = offsetC (off.extractLsb' 3 12) l := by
  have hm : (0x8000#16 : Offset) = 1#1 ++ 0#12 ++ 0#3 := by decide
  have h1 : ∀ b : BitVec 1, b &&& 1#1 = b := by decide
  have hz : (0#16 : Offset) = 0#(1 + 12 + 3) := rfl
  rw [splitC off, hm, BitVec.and_append, BitVec.and_append, h1, hz, append_eq_zero,
    append_eq_zero] at h
  conv_lhs => rw [splitC off, h.1.1, hl]
  rfl

theorem offsetC_mask (i : HartIndex) (l : Lane) : offsetC i l &&& 0x8000#16 = 0#16 := by
  have hm : (0x8000#16 : Offset) = 1#1 ++ 0#12 ++ 0#3 := by decide
  rw [offsetC, hm, BitVec.and_append, BitVec.and_append]
  simp

theorem offsetI_mask (i : HartIndex) : offsetI i &&& 0xC003#16 = 0#16 := by
  rw [maskI, offsetI_index]

/-- Format T: an offset below 8 with the low bits of a part is that part's. -/
theorem offsetT_of_low (off : Offset) (l : Lane) (h : off.toNat < 8)
    (hl : off.extractLsb' 0 3 = l.lowBits) : off = offsetT l := by
  apply BitVec.eq_of_toNat_eq
  rw [offsetT_toNat, ← hl, BitVec.extractLsb'_toNat]
  simp
  omega

/-! ### What a format takes -/

/-- Format T takes only the offsets and sizes of the parts of MTIME. -/
theorem formatT_some {n : Nat} {off : Offset} {l : Lane} (h8 : off.toNat < 8)
    (h : formatT n off = some l) : n = l.bytes ∧ off = offsetT l := by
  unfold formatT at h
  split at h
  · obtain ⟨hn, hl⟩ := laneAt_some h
    exact ⟨hn, offsetT_of_low off l h8 hl⟩
  · cases h

/-- Format C takes only the offsets and sizes of the parts of compare registers. -/
theorem formatC_some {n : Nat} {off : Offset} {i : HartIndex} {l : Lane}
    (h : formatC n off = some (i, l)) : n = l.bytes ∧ off = offsetC i l := by
  unfold formatC at h
  split at h
  · rename_i hm
    simp only [Option.map_eq_some_iff, Prod.mk.injEq] at h
    obtain ⟨l', h', hi, rfl⟩ := h
    obtain ⟨hn, hl⟩ := laneAt_some h'
    exact ⟨hn, by rw [← hi]; exact maskC off l' hm hl⟩
  · cases h

/-- Inside a region of 0x4000 bytes, format I takes only the RESERVED word and the words of indices up
to 4094, each 4 bytes wide. -/
theorem formatI_some {n : Nat} {off : Offset} {sl : Slot} (hs : off.toNat < 0x4000)
    (h : formatI n off = some sl) :
    n = 4 ∧ match sl with
      | .reservedWord => off = 0x3FFC#16
      | .register i => off = offsetI i ∧ indexWf i = true := by
  unfold formatI at h
  split at h
  · cases h
  · rename_i h4
    refine ⟨not_not.mp h4, ?_⟩
    split at h
    · cases h
      assumption
    · rename_i hne
      split at h
      · rename_i hm
        cases h
        have ho := (maskI off).1 hm
        refine ⟨ho, ?_⟩
        have ht := congrArg BitVec.toNat ho
        rw [offsetI_toNat] at ht
        simp only [indexWf, decide_eq_true_eq]
        by_contra hlt
        exact hne (BitVec.eq_of_toNat_eq (by rw [BitVec.toNat_ofNat]; omega))
      · cases h

/-- Write data made from an integer of the part's size is data for that part with that value. -/
theorem writeDataAt_inv (l : Lane) {v : Nat} (h : v < 2 ^ (8 * l.bytes)) :
    (writeDataAt l v).lane = l ∧ (writeDataAt l v).value = v := by
  cases l <;> simp [writeDataAt, WriteData.lane, WriteData.value, Lane.bytes] at * <;> omega

/-! ### The regions of a configuration -/

theorem mem_regions {cfg : Config} {p : Placed} :
    p ∈ regions cfg ↔
      (∃ t d, cfg.mtimers[t]? = some d ∧ p = placedMtime (d, t)) ∨
      (∃ t d, cfg.mtimers[t]? = some d ∧ 0 < hartCount d.harts ∧ p = placedMtimecmp (d, t)) ∨
      (∃ m d, cfg.mswis[m]? = some d ∧ p = placedMswi (d, m)) ∨
      (∃ m d, cfg.sswis[m]? = some d ∧ p = placedSswi (d, m)) := by
  simp only [regions, List.mem_append, List.mem_map, List.mem_filter, decide_eq_true_eq, Prod.exists,
    List.mem_zipIdx_iff_getElem?, or_assoc]
  constructor
  · rintro (⟨d, t, h, rfl⟩ | ⟨d, t, ⟨h, hc⟩, rfl⟩ | ⟨d, m, h, rfl⟩ | ⟨d, m, h, rfl⟩)
    · exact .inl ⟨t, d, h, rfl⟩
    · exact .inr (.inl ⟨t, d, h, hc, rfl⟩)
    · exact .inr (.inr (.inl ⟨m, d, h, rfl⟩))
    · exact .inr (.inr (.inr ⟨m, d, h, rfl⟩))
  · rintro (⟨t, d, h, rfl⟩ | ⟨t, d, h, hc, rfl⟩ | ⟨m, d, h, rfl⟩ | ⟨m, d, h, rfl⟩)
    · exact .inl ⟨d, t, h, rfl⟩
    · exact .inr (.inl ⟨d, t, ⟨h, hc⟩, rfl⟩)
    · exact .inr (.inr (.inl ⟨d, m, h, rfl⟩))
    · exact .inr (.inr (.inr ⟨d, m, h, rfl⟩))

end Sys2Proof
end

