-- ==== Sys2Proof/Laws/Ops.lean ====
section
/-! SUPPORT. What each shared operation and each meaning can do, said once: R64's outcome, the guard of
an operation, each meaning's next states, what an operation can do to the devices, and what each
internal step can do. Later proofs cite these and do not unfold the definitions again. -/

namespace Sys2Proof.Machine

/-! ### Same devices -/

theorem State.SameDevices.rfl {s : State} : s.SameDevices s := ⟨.refl _, .refl _, .refl _, .refl _, .refl _, .refl _⟩

theorem State.SameDevices.trans {s t u : State} (h : s.SameDevices t) (h' : t.SameDevices u) :
    s.SameDevices u := by
  obtain ⟨a, b, c, d, e, f⟩ := h
  obtain ⟨a', b', c', d', e', f'⟩ := h'
  exact ⟨a'.trans a, b'.trans b, c'.trans c, d'.trans d, e'.trans e, f'.trans f⟩

theorem State.sameDevices_respond (s : State) (r : Response) : s.SameDevices (s.respond r) :=
  State.SameDevices.rfl

theorem State.sameDevices_drawn (s : State) (n : Nat) : s.SameDevices (s.drawn n) :=
  State.SameDevices.rfl

/-! ### R64's outcome -/

/-- An access the source does not define touches the marks, the answer and the draw counter, and
nothing else. -/
theorem badAccess_frame (why : BadReason) (d : Descriptor) (s : State) :
    badAccess why d s =
      { s with
        refusalMark := (badAccess why d s).refusalMark
        faultMark := (badAccess why d s).faultMark
        resp := (badAccess why d s).resp
        draws := (badAccess why d s).draws } := by
  unfold badAccess
  split
  · rfl
  · rfl
  · unfold ignoreAccess
    split <;> rfl

theorem badAccess_sameDevices (why : BadReason) (d : Descriptor) (s : State) :
    s.SameDevices (badAccess why d s) := by
  rw [badAccess_frame]
  exact State.SameDevices.rfl

theorem badAccess_agenda (why : BadReason) (d : Descriptor) (s : State) :
    (badAccess why d s).agenda = s.agenda := by rw [badAccess_frame]

theorem badAccess_refuse {s : State} (why : BadReason) (d : Descriptor)
    (h : s.cfg.badAccess = .refuse) : badAccess why d s = refuseAccess why d s := by
  simp [badAccess, h]

theorem badAccess_fault {s : State} (why : BadReason) (d : Descriptor)
    (h : s.cfg.badAccess = .fault) : badAccess why d s = faultAccess d s := by
  simp [badAccess, h]

theorem badAccess_ignore {s : State} (why : BadReason) (d : Descriptor)
    (h : s.cfg.badAccess = .ignore) : badAccess why d s = ignoreAccess d s := by
  simp [badAccess, h]

/-- A mark that is set stays as it is (R40). -/
theorem badAccess_refusalMark {s : State} (why : BadReason) (d : Descriptor) {r : RefusedAccess}
    (h : s.refusalMark = some r) : (badAccess why d s).refusalMark = some r := by
  unfold badAccess
  split
  · simp [refuseAccess, h]
  · simpa [faultAccess] using h
  · unfold ignoreAccess
    split <;> simpa using h

theorem badAccess_faultMark {s : State} (why : BadReason) (d : Descriptor) {f : AccessFault}
    (h : s.faultMark = some f) : (badAccess why d s).faultMark = some f := by
  unfold badAccess
  split
  · simpa [refuseAccess] using h
  · simp [faultAccess, h]
  · unfold ignoreAccess
    split <;> simpa using h

/-- R64's outcome is the relation `BadOutcome`. -/
theorem badAccess_outcome (why : BadReason) (d : Descriptor) (s : State) :
    BadOutcome why d s (badAccess why d s) := by
  unfold BadOutcome
  cases h : s.cfg.badAccess with
  | refuse =>
    rw [badAccess_refuse _ _ h]
    cases hr : s.refusalMark <;> simp [refuseAccess, hr]
  | fault =>
    rw [badAccess_fault _ _ h]
    cases hr : s.faultMark <;> simp [faultAccess, hr]
  | ignore =>
    rw [badAccess_ignore _ _ h]
    rcases d with ⟨r, off, op⟩
    cases op with
    | load n => exact ⟨_, Nat.mod_lt _ (Nat.two_pow_pos _), rfl⟩
    | store n v => rfl
    | special k n =>
      cases k <;> first | rfl | exact ⟨_, Nat.mod_lt _ (Nat.two_pow_pos _), rfl⟩

/-! ### Compare registers -/

/-- A compare register that holds `v` has the value `v`: its halves make it up. -/
theorem Compare.value_known (v : Word64) : (Compare.known v).value = some v := by
  simp only [Compare.known, Compare.value, lowHalf, highHalf]
  congr 1
  apply BitVec.eq_of_toNat_eq
  have := v.isLt
  rw [toNat_append_eq]
  simp only [BitVec.extractLsb'_toNat, Nat.shiftRight_eq_div_pow]
  omega

/-- The value of a compare register both of whose halves are known. -/
theorem Compare.value_halves (lo hi : Word32) :
    Compare.value { lo := some lo, hi := some hi } = some (hi ++ lo) := rfl

/-- A write to a compare register that has a value leaves it a value (R114, R62). -/
theorem writeCompare_known {c : Compare} (w : WriteData) (h : c.value ≠ none) :
    (writeCompare c w).value ≠ none := by
  rcases c with ⟨lo, hi⟩
  cases w <;> cases lo <;> cases hi <;>
    simp [writeCompare, Compare.value, Compare.known] at *

/-- A whole write gives a compare register a value whatever it held. -/
theorem writeCompare_full (c : Compare) (v : Word64) :
    (writeCompare c (.full v)).value = some v := Compare.value_known v

/-! ### The guard of an operation -/

theorem guarded_none (i : Instr) (s e : State) : guarded none i s e = .next e := rfl

theorem guarded_some (why : BadReason) (i : Instr) (s e : State) :
    guarded (some why) i s e = .next (badAccess why (encode i) s) := rfl

/-- A guarded operation always answers a next state: its effect, or R64's outcome. -/
theorem guarded_next {f : Option BadReason} {i : Instr} {s e u : State}
    (h : guarded f i s e = .next u) :
    (f = none ∧ u = e) ∨ ∃ why, f = some why ∧ u = badAccess why (encode i) s := by
  cases f with
  | none => exact .inl ⟨rfl, by simpa [guarded] using h.symm⟩
  | some why => exact .inr ⟨why, rfl, by simpa [guarded] using h.symm⟩

theorem guarded_total (f : Option BadReason) (i : Instr) (s e : State) :
    ∃ u, guarded f i s e = .next u := by
  cases f <;> exact ⟨_, rfl⟩

theorem laneForbidden_full (cfg : Config) : laneForbidden cfg .full = none := rfl

theorem laneForbidden_half {cfg : Config} (l : Lane) (h : cfg.halfAccess64 = true) :
    laneForbidden cfg l = none := by
  cases l <;> simp [laneForbidden, h]

theorem indexForbidden_served {rs : List HartRun} {i : HartIndex} (h : i.toNat < hartCount rs) :
    indexForbidden rs i = none := by simp [indexForbidden, h]

theorem indexForbidden_unserved {rs : List HartRun} {i : HartIndex} (h : hartCount rs ≤ i.toNat) :
    indexForbidden rs i = some .unconnected := by simp [indexForbidden, Nat.not_lt.mpr h]

theorem indexForbidden_none {rs : List HartRun} {i : HartIndex} (h : indexForbidden rs i = none) :
    i.toNat < hartCount rs := by
  by_contra hn
  simp [indexForbidden, hn] at h

/-! ### Each meaning -/

variable {s u : State}

theorem execMtimeR_eq {t : Nat} {l : Lane} {d : Mtimer} (hd : s.cfg.mtimers[t]? = some d) :
    execMtimeR t l s = guarded (laneForbidden s.cfg l) (.mtimeR t l) s
      (s.respond (readLane l (s.getMtime d.mtimeCell))) := by simp [execMtimeR, hd]

theorem execMtimeW_eq {t : Nat} {w : WriteData} {d : Mtimer} (hd : s.cfg.mtimers[t]? = some d) :
    execMtimeW t w s = guarded (laneForbidden s.cfg w.lane) (.mtimeW t w) s
      ((s.setMtime d.mtimeCell (writeLane (s.getMtime d.mtimeCell) w)).respond .ack) := by
  simp [execMtimeW, hd]

theorem execMtimecmpR_eq {t : Nat} {i : HartIndex} {l : Lane} {d : Mtimer}
    (hd : s.cfg.mtimers[t]? = some d) :
    execMtimecmpR t i l s =
      guarded ((indexForbidden d.harts i).or (laneForbidden s.cfg l)) (.mtimecmpR t i l) s
        (readCompare t i l s) := by simp [execMtimecmpR, hd]

theorem execMtimecmpW_eq {t : Nat} {i : HartIndex} {w : WriteData} {d : Mtimer}
    (hd : s.cfg.mtimers[t]? = some d) :
    execMtimecmpW t i w s =
      guarded ((indexForbidden d.harts i).or (laneForbidden s.cfg w.lane)) (.mtimecmpW t i w) s
        ((s.setCompare t i (writeCompare (s.getCompare t i) w)).respond .ack) := by
  simp [execMtimecmpW, hd]

theorem execMswiReserved_eq {m : Nat} {a : ReservedAccess} {d : SwiDevice}
    (hd : s.cfg.mswis[m]? = some d) :
    execMswiReserved m a s = .next (badAccess .reserved (encode (.mswiReserved m a)) s) := by
  simp [execMswiReserved, hd]

theorem execMsipR_eq {m : Nat} {i : HartIndex} {d : SwiDevice} (hd : s.cfg.mswis[m]? = some d) :
    execMsipR m i s = guarded (indexForbidden d.harts i) (.msipR m i) s
      (s.respond (.data32 (zextBit (s.getMsip m i)))) := by simp [execMsipR, hd]

theorem execMsipW_eq {m : Nat} {i : HartIndex} {v : Word32} {d : SwiDevice}
    (hd : s.cfg.mswis[m]? = some d) :
    execMsipW m i v s = guarded (indexForbidden d.harts i) (.msipW m i v) s
      ((s.setMsip m i (warlBit v)).respond .ack) := by simp [execMsipW, hd]

theorem execSswiReserved_eq {m : Nat} {a : ReservedAccess} {d : SwiDevice}
    (hd : s.cfg.sswis[m]? = some d) :
    execSswiReserved m a s = .next (badAccess .reserved (encode (.sswiReserved m a)) s) := by
  simp [execSswiReserved, hd]

theorem execSetssipR_eq {m : Nat} {i : HartIndex} {d : SwiDevice} (hd : s.cfg.sswis[m]? = some d) :
    execSetssipR m i s = guarded (indexForbidden d.harts i) (.setssipR m i) s
      (s.respond (.data32 0#32)) := by simp [execSetssipR, hd]

theorem execSetssipW_eq {m : Nat} {i : HartIndex} {v : Word32} {d : SwiDevice}
    (hd : s.cfg.sswis[m]? = some d) :
    execSetssipW m i v s = guarded (indexForbidden d.harts i) (.setssipW m i v) s
      ((if warlBit v then s.setInflight m i (s.getInflight m i + 1) else s).respond .ack) := by
  simp [execSetssipW, hd]

/-! ### What an operation can do to the devices -/

theorem readCompare_sameDevices (t : Nat) (i : HartIndex) (l : Lane) (s : State) :
    s.SameDevices (readCompare t i l s) := by
  unfold readCompare
  split <;> exact State.SameDevices.rfl

/-- A bus operation that answers a next state leaves every device as it was, or is one of the four
writes, admitted by its guard, and has that write's effect. -/
inductive Effect (s : State) : Instr → State → Prop where
  | nothing (i : Instr) (u : State) (h : s.SameDevices u) : Effect s i u
  | mtime (t : Nat) (w : WriteData) (d : Mtimer) (hd : s.cfg.mtimers[t]? = some d)
      (hw : laneForbidden s.cfg w.lane = none) :
      Effect s (.mtimeW t w)
        ((s.setMtime d.mtimeCell (writeLane (s.getMtime d.mtimeCell) w)).respond .ack)
  | mtimecmp (t : Nat) (i : HartIndex) (w : WriteData) (d : Mtimer)
      (hd : s.cfg.mtimers[t]? = some d) (hi : i.toNat < hartCount d.harts)
      (hw : laneForbidden s.cfg w.lane = none) :
      Effect s (.mtimecmpW t i w)
        ((s.setCompare t i (writeCompare (s.getCompare t i) w)).respond .ack)
  | msip (m : Nat) (i : HartIndex) (v : Word32) (d : SwiDevice) (hd : s.cfg.mswis[m]? = some d)
      (hi : i.toNat < hartCount d.harts) :
      Effect s (.msipW m i v) ((s.setMsip m i (warlBit v)).respond .ack)
  | edge (m : Nat) (i : HartIndex) (v : Word32) (d : SwiDevice) (hd : s.cfg.sswis[m]? = some d)
      (hi : i.toNat < hartCount d.harts) (hv : warlBit v = true) :
      Effect s (.setssipW m i v) ((s.setInflight m i (s.getInflight m i + 1)).respond .ack)

theorem guarded_sameDevices {f : Option BadReason} {i : Instr} {e : State}
    (he : s.SameDevices e) (h : guarded f i s e = .next u) : s.SameDevices u := by
  rcases guarded_next h with ⟨-, rfl⟩ | ⟨why, -, rfl⟩
  · exact he
  · exact badAccess_sameDevices ..

theorem exec_effect {i : Instr} (h : exec i s = .next u) : Effect s i u := by
  cases i with
  | mtimeR t l =>
    simp only [exec] at h
    cases hd : s.cfg.mtimers[t]? with
    | none => simp [execMtimeR, hd] at h
    | some d =>
      rw [execMtimeR_eq hd] at h
      exact .nothing _ _ (guarded_sameDevices (s.sameDevices_respond _) h)
  | mtimeW t w =>
    simp only [exec] at h
    cases hd : s.cfg.mtimers[t]? with
    | none => simp [execMtimeW, hd] at h
    | some d =>
      rw [execMtimeW_eq hd] at h
      rcases guarded_next h with ⟨hf, rfl⟩ | ⟨why, -, rfl⟩
      · exact .mtime t w d hd hf
      · exact .nothing _ _ (badAccess_sameDevices ..)
  | mtimecmpR t i l =>
    simp only [exec] at h
    cases hd : s.cfg.mtimers[t]? with
    | none => simp [execMtimecmpR, hd] at h
    | some d =>
      rw [execMtimecmpR_eq hd] at h
      exact .nothing _ _ (guarded_sameDevices (readCompare_sameDevices ..) h)
  | mtimecmpW t i w =>
    simp only [exec] at h
    cases hd : s.cfg.mtimers[t]? with
    | none => simp [execMtimecmpW, hd] at h
    | some d =>
      rw [execMtimecmpW_eq hd] at h
      rcases guarded_next h with ⟨hf, rfl⟩ | ⟨why, -, rfl⟩
      · rw [Option.or_eq_none_iff] at hf
        exact .mtimecmp t i w d hd (indexForbidden_none hf.1) hf.2
      · exact .nothing _ _ (badAccess_sameDevices ..)
  | mswiReserved m a =>
    simp only [exec] at h
    cases hd : s.cfg.mswis[m]? with
    | none => simp [execMswiReserved, hd] at h
    | some d =>
      rw [execMswiReserved_eq hd] at h
      cases h
      exact .nothing _ _ (badAccess_sameDevices ..)
  | msipR m i =>
    simp only [exec] at h
    cases hd : s.cfg.mswis[m]? with
    | none => simp [execMsipR, hd] at h
    | some d =>
      rw [execMsipR_eq hd] at h
      exact .nothing _ _ (guarded_sameDevices (s.sameDevices_respond _) h)
  | msipW m i v =>
    simp only [exec] at h
    cases hd : s.cfg.mswis[m]? with
    | none => simp [execMsipW, hd] at h
    | some d =>
      rw [execMsipW_eq hd] at h
      rcases guarded_next h with ⟨hf, rfl⟩ | ⟨why, -, rfl⟩
      · exact .msip m i v d hd (indexForbidden_none hf)
      · exact .nothing _ _ (badAccess_sameDevices ..)
  | sswiReserved m a =>
    simp only [exec] at h
    cases hd : s.cfg.sswis[m]? with
    | none => simp [execSswiReserved, hd] at h
    | some d =>
      rw [execSswiReserved_eq hd] at h
      cases h
      exact .nothing _ _ (badAccess_sameDevices ..)
  | setssipR m i =>
    simp only [exec] at h
    cases hd : s.cfg.sswis[m]? with
    | none => simp [execSetssipR, hd] at h
    | some d =>
      rw [execSetssipR_eq hd] at h
      exact .nothing _ _ (guarded_sameDevices (s.sameDevices_respond _) h)
  | setssipW m i v =>
    simp only [exec] at h
    cases hd : s.cfg.sswis[m]? with
    | none => simp [execSetssipW, hd] at h
    | some d =>
      rw [execSetssipW_eq hd] at h
      rcases guarded_next h with ⟨hf, rfl⟩ | ⟨why, -, rfl⟩
      · cases hv : warlBit v
        · simpa using Effect.nothing _ _ (s.sameDevices_respond _)
        · simpa using Effect.edge m i v d hd (indexForbidden_none hf) hv
      · exact .nothing _ _ (badAccess_sameDevices ..)

/-- Where the configuration has the operation's region, the operation answers a next state. -/
theorem exec_total {i : Instr} (h : s.cfg.hasRegion (encode i).region = true) :
    ∃ u, exec i s = .next u := by
  cases i with
  | mtimeR t l =>
    obtain ⟨d, hd⟩ : ∃ d, s.cfg.mtimers[t]? = some d :=
      ⟨_, List.getElem?_eq_getElem (by simpa [encode, Config.hasRegion] using h)⟩
    simp only [exec, execMtimeR_eq hd]
    exact guarded_total ..
  | mtimeW t w =>
    obtain ⟨d, hd⟩ : ∃ d, s.cfg.mtimers[t]? = some d :=
      ⟨_, List.getElem?_eq_getElem (by simpa [encode, Config.hasRegion] using h)⟩
    simp only [exec, execMtimeW_eq hd]
    exact guarded_total ..
  | mtimecmpR t i l =>
    obtain ⟨d, hd⟩ : ∃ d, s.cfg.mtimers[t]? = some d := by
      cases hd : s.cfg.mtimers[t]? with
      | none => simp [encode, Config.hasRegion, hd] at h
      | some d => exact ⟨d, rfl⟩
    simp only [exec, execMtimecmpR_eq hd]
    exact guarded_total ..
  | mtimecmpW t i w =>
    obtain ⟨d, hd⟩ : ∃ d, s.cfg.mtimers[t]? = some d := by
      cases hd : s.cfg.mtimers[t]? with
      | none => simp [encode, Config.hasRegion, hd] at h
      | some d => exact ⟨d, rfl⟩
    simp only [exec, execMtimecmpW_eq hd]
    exact guarded_total ..
  | mswiReserved m a =>
    obtain ⟨d, hd⟩ : ∃ d, s.cfg.mswis[m]? = some d :=
      ⟨_, List.getElem?_eq_getElem (by simpa [encode, Config.hasRegion] using h)⟩
    exact ⟨_, execMswiReserved_eq hd⟩
  | msipR m i =>
    obtain ⟨d, hd⟩ : ∃ d, s.cfg.mswis[m]? = some d :=
      ⟨_, List.getElem?_eq_getElem (by simpa [encode, Config.hasRegion] using h)⟩
    simp only [exec, execMsipR_eq hd]
    exact guarded_total ..
  | msipW m i v =>
    obtain ⟨d, hd⟩ : ∃ d, s.cfg.mswis[m]? = some d :=
      ⟨_, List.getElem?_eq_getElem (by simpa [encode, Config.hasRegion] using h)⟩
    simp only [exec, execMsipW_eq hd]
    exact guarded_total ..
  | sswiReserved m a =>
    obtain ⟨d, hd⟩ : ∃ d, s.cfg.sswis[m]? = some d :=
      ⟨_, List.getElem?_eq_getElem (by simpa [encode, Config.hasRegion] using h)⟩
    exact ⟨_, execSswiReserved_eq hd⟩
  | setssipR m i =>
    obtain ⟨d, hd⟩ : ∃ d, s.cfg.sswis[m]? = some d :=
      ⟨_, List.getElem?_eq_getElem (by simpa [encode, Config.hasRegion] using h)⟩
    simp only [exec, execSetssipR_eq hd]
    exact guarded_total ..
  | setssipW m i v =>
    obtain ⟨d, hd⟩ : ∃ d, s.cfg.sswis[m]? = some d :=
      ⟨_, List.getElem?_eq_getElem (by simpa [encode, Config.hasRegion] using h)⟩
    simp only [exec, execSetssipW_eq hd]
    exact guarded_total ..

/-! ### The internal steps and the other events -/

/-- TICK adds one to its cell, where it is enabled, and does nothing else. -/
theorem execTick_cases (c : Nat) (s : State) :
    (tickEnabled s c = true ∧ execTick c s = s.setMtime c (s.getMtime c + 1#64)) ∨
    (tickEnabled s c = false ∧ execTick c s = s) := by
  cases h : tickEnabled s c <;> simp [execTick, h]

/-- DELIVER takes one or more edges, sets SSIP of the hart and takes a draw, where it is enabled, and
does nothing else. -/
theorem execDeliver_cases (d : Nat) (i : HartIndex) (s : State) :
    (∃ dev h, s.cfg.sswis[d]? = some dev ∧ hartOf dev.harts i.toNat = some h ∧
      0 < s.getInflight d i ∧
      execDeliver d i s =
        ((s.setInflight d i (s.getInflight d i - edgesTaken s.freeNat (s.getInflight d i))).setSsip
          h true).drawn 1) ∨
    execDeliver d i s = s := by
  cases hd : s.cfg.sswis[d]? with
  | none => exact .inr (by simp [execDeliver, hd])
  | some dev =>
    cases hh : hartOf dev.harts i.toNat with
    | none => exact .inr (by simp [execDeliver, hd, hh])
    | some h =>
      by_cases hz : s.getInflight d i = 0
      · exact .inr (by simp [execDeliver, hd, hh, hz])
      · exact .inl ⟨dev, h, rfl, hh, Nat.pos_of_ne_zero hz, by simp [execDeliver, hd, hh, hz]⟩

/-- The number of edges one DELIVER takes lies in 1 .. n (R157). -/
theorem edgesTaken_range (free : Nat) {n : Nat} (h : 0 < n) :
    1 ≤ edgesTaken free n ∧ edgesTaken free n ≤ n := by
  have := Nat.mod_lt free h
  simp only [edgesTaken]
  omega

theorem sampleMip_sameDevices (h : Nat) (s : State) : s.SameDevices (sampleMip h s) :=
  State.SameDevices.rfl

/-- What an access of a bus master can do: nothing to the devices, or the effect of the operation it
decodes to. -/
theorem performBus_cases {a : BusAccess} (h : performBus a s = .next u) :
    s.SameDevices u ∨
    ∃ r off i, locate s.cfg a.addr = some (r, off) ∧ mayAccess s.cfg a.master r.device = true ∧
      decode ⟨r, off, a.op⟩ = .ok i ∧ exec i { s with master := a.master } = .next u := by
  unfold performBus at h
  split at h
  · cases h
    exact .inl State.SameDevices.rfl
  · rename_i r off hl
    split at h
    · rename_i hm
      unfold performDescriptor at h
      split at h
      · rename_i i hi
        exact .inr ⟨r, off, i, hl, hm, hi, h⟩
      · cases h
        exact .inl (badAccess_sameDevices ..)
    · cases h
      exact .inl State.SameDevices.rfl

end Sys2Proof.Machine
end

