-- ==== Sys2Proof/Laws/PerInstr.lean ====
section
/-! SUPPORT. Statements made per instruction. Family `EncodeFits`: the access an encodable operation is
encoded to is naturally aligned, lies inside its region (20_memory.md R60), and carries data of its
size (00_scope.md R13). -/

namespace Sys2Proof.Laws.EncodeFits

/-- The family's statement about one operation. -/
def Statement (i : Instr) : Prop :=
  i.encodable = true →
    (encode i).off.toNat % (encode i).op.bytes = 0 ∧
    (encode i).off.toNat + (encode i).op.bytes ≤ (encode i).region.size ∧
    (encode i).op.wf = true

/-- The bits of a compare register's part: aligned, and inside the region for an index up to 4094. -/
theorem offsetC_fits (i : HartIndex) (l : Lane) (h : indexWf i = true) :
    (offsetC i l).toNat % l.bytes = 0 ∧ (offsetC i l).toNat + l.bytes ≤ 0x7FF8 := by
  have hi : i.toNat ≤ 4094 := by simpa [indexWf] using h
  rw [offsetC_toNat]
  cases l <;> simp [Lane.lowBits, Lane.bytes] <;> omega

/-- The word of a software-interrupt register: aligned, and inside the region. -/
theorem offsetI_fits (i : HartIndex) (h : indexWf i = true) :
    (offsetI i).toNat % 4 = 0 ∧ (offsetI i).toNat + 4 ≤ 0x4000 := by
  have hi : i.toNat ≤ 4094 := by simpa [indexWf] using h
  rw [offsetI_toNat]
  omega

/-- A 32-bit word is a 4-byte value, and write data a value of its part's size. -/
theorem word32_wf (v : Word32) : BusOp.wf (.store 4 v.toNat) = true := by
  exact decide_eq_true v.isLt

theorem writeData_wf (w : WriteData) : BusOp.wf (.store w.lane.bytes w.value) = true := by
  cases w with
  | full v => exact decide_eq_true v.isLt
  | low v => exact decide_eq_true v.isLt
  | high v => exact decide_eq_true v.isLt

/-- The one register of the MTIME region: aligned, and inside the region. -/
theorem offsetT_fits (l : Lane) :
    (offsetT l).toNat % l.bytes = 0 ∧ (offsetT l).toNat + l.bytes ≤ 8 := by cases l <;> decide

/-- The RESERVED word: aligned, inside the region, and its data a 4-byte value. -/
theorem reserved_fits (a : ReservedAccess) :
    (0x3FFC#16).toNat % a.op.bytes = 0 ∧ (0x3FFC#16).toNat + a.op.bytes ≤ 0x4000 ∧
      a.op.wf = true := by
  cases a with
  | read => decide
  | write v => exact ⟨by simp [ReservedAccess.op, BusOp.bytes], by simp [ReservedAccess.op, BusOp.bytes], word32_wf v⟩

theorem mtimeR (t : Nat) (lane : Lane) : Statement (.mtimeR t lane) :=
  fun _ => ⟨(offsetT_fits lane).1, (offsetT_fits lane).2, rfl⟩

theorem mtimeW (t : Nat) (w : WriteData) : Statement (.mtimeW t w) :=
  fun _ => ⟨(offsetT_fits w.lane).1, (offsetT_fits w.lane).2, writeData_wf w⟩

theorem mtimecmpR (t : Nat) (i : HartIndex) (lane : Lane) : Statement (.mtimecmpR t i lane) :=
  fun h => ⟨(offsetC_fits i lane h).1, (offsetC_fits i lane h).2, rfl⟩

theorem mtimecmpW (t : Nat) (i : HartIndex) (w : WriteData) : Statement (.mtimecmpW t i w) :=
  fun h => ⟨(offsetC_fits i w.lane h).1, (offsetC_fits i w.lane h).2, writeData_wf w⟩

theorem mswiReserved (m : Nat) (a : ReservedAccess) : Statement (.mswiReserved m a) :=
  fun _ => reserved_fits a

theorem msipR (m : Nat) (i : HartIndex) : Statement (.msipR m i) :=
  fun h => ⟨(offsetI_fits i h).1, (offsetI_fits i h).2, rfl⟩

theorem msipW (m : Nat) (i : HartIndex) (v : Word32) : Statement (.msipW m i v) :=
  fun h => ⟨(offsetI_fits i h).1, (offsetI_fits i h).2, word32_wf v⟩

theorem sswiReserved (d : Nat) (a : ReservedAccess) : Statement (.sswiReserved d a) :=
  fun _ => reserved_fits a

theorem setssipR (d : Nat) (i : HartIndex) : Statement (.setssipR d i) :=
  fun h => ⟨(offsetI_fits i h).1, (offsetI_fits i h).2, rfl⟩

theorem setssipW (d : Nat) (i : HartIndex) (v : Word32) : Statement (.setssipW d i v) :=
  fun h => ⟨(offsetI_fits i h).1, (offsetI_fits i h).2, word32_wf v⟩

end Sys2Proof.Laws.EncodeFits
end

