-- ==== Sys2Proof/Laws/Step.lean ====
section
/-! SUPPORT. What one step can do, said once: nothing to the devices, R64's outcome, the operation an
access decodes to, a TICK, a DELIVER, or a hart writing its own SSIP; and what each of these can do to the
marks. Every invariant of the machine follows from these cases. -/

namespace Sys2Proof

/-- The operation a descriptor decodes to is an operation of the same region. -/
theorem decode_region {d : Descriptor} {i : Instr} (h : decode d = .ok i) :
    (encode i).region = d.region := by
  have hl : ∀ {r : Region} {n : Nat} {off : Offset} {i : Instr}, decodeLoad r n off = some i →
      (encode i).region = r := by
    intro r n off i hi
    cases r <;> simp only [decodeLoad, Option.map_eq_some_iff] at hi <;> obtain ⟨p, -, rfl⟩ := hi
    · rfl
    · rfl
    · cases p <;> rfl
    · cases p <;> rfl
  have hst : ∀ {r : Region} {n v : Nat} {off : Offset} {i : Instr},
      decodeStore r n v off = some i → (encode i).region = r := by
    intro r n v off i hi
    cases r <;> simp only [decodeStore, Option.map_eq_some_iff] at hi <;> obtain ⟨p, -, rfl⟩ := hi
    · rfl
    · rfl
    · cases p <;> rfl
    · cases p <;> rfl
  rcases d with ⟨r, off, op⟩
  cases op with
  | load n =>
    simp only [decode] at h
    split at h
    · cases h
    · split at h
      · rename_i hi
        cases h
        exact hl hi
      · cases h
  | store n v =>
    simp only [decode] at h
    split at h
    · cases h
    · split at h
      · rename_i hi
        cases h
        exact hst hi
      · cases h
  | special k n =>
    simp only [decode] at h
    split at h <;> cases h

/-- A load decodes by its row alone, inside the region. -/
theorem decode_load {r : Region} {n : Nat} {off : Offset} {i : Instr}
    (h : decode ⟨r, off, .load n⟩ = .ok i) :
    off.toNat < r.size ∧ decodeLoad r n off = some i := by
  simp only [decode] at h
  split at h
  · cases h
  · rename_i hs
    split at h
    · rename_i hi
      cases h
      exact ⟨Nat.not_le.1 hs, hi⟩
    · cases h

/-- A store decodes by its row alone, inside the region. -/
theorem decode_store {r : Region} {n v : Nat} {off : Offset} {i : Instr}
    (h : decode ⟨r, off, .store n v⟩ = .ok i) :
    off.toNat < r.size ∧ decodeStore r n v off = some i := by
  simp only [decode] at h
  split at h
  · cases h
  · rename_i hs
    split at h
    · rename_i hi
      cases h
      exact ⟨Nat.not_le.1 hs, hi⟩
    · cases h

/-- An access that is neither a plain load nor a plain store decodes to nothing. -/
theorem decode_special (r : Region) (k : SpecialKind) (n : Nat) (off : Offset) (i : Instr) :
    decode ⟨r, off, .special k n⟩ ≠ .ok i := by
  simp only [decode]
  split <;> simp

/-- Bit 0 of store data is bit 0 of the 32-bit word. -/
theorem getLsbD_zero_ofNat (v : Nat) : (BitVec.ofNat 32 v).getLsbD 0 = v.testBit 0 := by
  rw [BitVec.getLsbD_ofNat]
  rfl

/-- A located region is one the configuration has. -/
theorem locate_hasRegion {cfg : Config} {addr : Nat} {r : Region} {off : Offset}
    (h : locate cfg addr = some (r, off)) : cfg.hasRegion r = true := by
  simp only [locate, Option.map_eq_some_iff, Prod.mk.injEq] at h
  obtain ⟨p, hp, rfl, -⟩ := h
  rcases mem_regions.1 (List.mem_of_find?_eq_some hp) with
    ⟨t, d, hd, rfl⟩ | ⟨t, d, hd, hc, rfl⟩ | ⟨m, d, hd, rfl⟩ | ⟨m, d, hd, rfl⟩
  · simpa [placedMtime, Config.hasRegion] using (List.getElem?_eq_some_iff.1 hd).1
  · simp [placedMtimecmp, Config.hasRegion, hd, hc]
  · simpa [placedMswi, Config.hasRegion] using (List.getElem?_eq_some_iff.1 hd).1
  · simpa [placedSswi, Config.hasRegion] using (List.getElem?_eq_some_iff.1 hd).1

end Sys2Proof

namespace Sys2Proof.Machine

/-- The same devices and the same marks: what a step may do to the model's own bookkeeping and the rest
of the state. -/
def State.SameBut (s t : State) : Prop :=
  s.SameDevices t ∧ t.refusalMark = s.refusalMark ∧ t.faultMark = s.faultMark

/-- An internal step may happen: it is the next event, or the devices move by themselves. -/
def State.Moves (s : State) (e : Event) : Prop := s.agenda = [] ∨ ∃ rest, s.agenda = e :: rest

/-- What a step that answers a next state did. `s'` is the state as the agent finds it, with the event
taken off the agenda and the bookkeeping done. -/
inductive Did (s u : State) : Prop where
  /-- nothing happened to the devices or the marks -/
  | quiet (h : s.SameBut u)
  /-- an access that reached a device and is no operation had R64's outcome -/
  | undefined (a : BusAccess) (rest : List Event) (why : BadReason) (d : Descriptor)
      (ha : s.agenda = .bus a :: rest)
      (hu : u = badAccess why d { s with agenda := rest, master := a.master })
  /-- an access of a bus master did the operation it decodes to -/
  | operation (a : BusAccess) (rest : List Event) (r : Region) (off : Offset) (i : Instr)
      (ha : s.agenda = .bus a :: rest) (hl : locate s.cfg a.addr = some (r, off))
      (hm : mayAccess s.cfg a.master r.device = true) (hd : decode ⟨r, off, a.op⟩ = .ok i)
      (he : exec i { s with agenda := rest, master := a.master } = .next u)
  /-- a cell ticked, by its event or by the devices themselves -/
  | tick (s' : State) (c : Nat) (hs : s.SameBut s') (hw : s.Moves (.tick c))
      (ht : tickEnabled s c = true)
      (hu : u = s'.setMtime c (s'.getMtime c + 1#64))
  /-- edges were delivered, by their event or by the devices themselves -/
  | deliver (s' : State) (d : Nat) (i : HartIndex) (dev : SwiDevice) (h k : Nat)
      (hs : s.SameBut s') (hw : s.Moves (.deliver d i)) (hd : s.cfg.sswis[d]? = some dev) (hh : hartOf dev.harts i.toNat = some h)
      (hk : 1 ≤ k ∧ k ≤ s.getInflight d i)
      (hu : u = ((s'.setInflight d i (s'.getInflight d i - k)).setSsip h true).drawn 1)
  /-- a hart's software wrote its own SSIP -/
  | hartWrite (h : Nat) (b : Bool) (rest : List Event) (ha : s.agenda = .writeSsip h b :: rest)
      (hu : u = State.setSsip { s with agenda := rest } h b)

theorem State.SameBut.rfl {s : State} : s.SameBut s := ⟨State.SameDevices.rfl, .refl _, .refl _⟩

theorem State.SameBut.agenda (s : State) (rest : List Event) :
    s.SameBut { s with agenda := rest } := State.SameBut.rfl

theorem State.SameBut.bookkeeping (s : State) (agenda : List Event) (turn patience draws : Nat) :
    s.SameBut { s with agenda := agenda, turn := turn, patience := patience, draws := draws } :=
  State.SameBut.rfl

/-- When TICK is enabled (R106, R107). -/
theorem tickEnabled_iff {s : State} {c : Nat} : tickEnabled s c = true ↔
    c ∈ cells s.cfg ∧ (s.cfg.mtimeWrap = .stuck → s.getMtime c ≠ BitVec.allOnes 64) := by
  simp [tickEnabled, imp_iff_not_or]

/-- TICK, from a state that differs from `s` in bookkeeping only. -/
theorem did_tick {s s' : State} (hs : s.SameBut s') (c : Nat) (hw : s.Moves (.tick c)) :
    Did s (execTick c s') := by
  rcases execTick_cases c s' with ⟨ht, hu⟩ | ⟨-, hu⟩
  · refine .tick s' c hs hw ?_ hu
    rw [tickEnabled_iff] at ht ⊢
    simpa only [State.getMtime, hs.1.1, hs.1.2.1] using ht
  · rw [hu]
    exact .quiet hs

/-- DELIVER, from a state that differs from `s` in bookkeeping only. -/
theorem did_deliver {s s' : State} (hs : s.SameBut s') (d : Nat) (i : HartIndex)
    (hw : s.Moves (.deliver d i)) : Did s (execDeliver d i s') := by
  rcases execDeliver_cases d i s' with ⟨dev, h, hd, hh, hp, hu⟩ | hu
  · have hi : s'.getInflight d i = s.getInflight d i := by
      simp only [State.getInflight, hs.1.2.2.2.2.1]
    refine .deliver s' d i dev h _ hs hw (by rw [← hs.1.1]; exact hd) hh ?_ hu
    exact hi ▸ edgesTaken_range _ hp
  · rw [hu]
    exact .quiet hs

/-- One internal agent's move, from a state that differs from `s` in bookkeeping only. -/
theorem did_runAgent {s s' : State} (hs : s.SameBut s') (e : Option Event) (ha : s.agenda = []) :
    Did s (runAgent e s') := by
  unfold runAgent
  split
  · exact did_tick hs _ (.inl ha)
  · exact did_deliver hs _ _ (.inl ha)
  · exact .quiet hs

/-- Everything a step can do. -/
theorem step_did {s u : State} (h : step s = .next u) : Did s u := by
  unfold step at h
  split at h
  · rename_i ha
    cases h
    unfold idle
    split
    · exact did_runAgent (State.SameBut.bookkeeping s s.agenda ..) _ ha
    · exact .quiet (State.SameBut.bookkeeping ..)
  · rename_i e rest ha
    cases e with
    | bus a =>
      simp only [perform, performBus] at h
      split at h
      · cases h
        exact .quiet State.SameBut.rfl
      · rename_i r off hl
        split at h
        · rename_i hm
          unfold performDescriptor at h
          split at h
          · rename_i i hi
            exact .operation a rest r off i ha hl hm hi h
          · cases h
            exact .undefined a rest _ _ ha rfl
        · cases h
          exact .quiet State.SameBut.rfl
    | tick c =>
      cases h
      exact did_tick (State.SameBut.agenda s rest) c (.inr ⟨rest, ha⟩)
    | deliver d i =>
      cases h
      exact did_deliver (State.SameBut.agenda s rest) d i (.inr ⟨rest, ha⟩)
    | sampleMip hart =>
      cases h
      exact .quiet State.SameBut.rfl
    | writeSsip hart b =>
      cases h
      exact .hartWrite hart b rest ha rfl

/-! ### The marks under an operation -/

/-- A guarded operation leaves the marks as its effect does, or has R64's outcome. -/
theorem guarded_marks {f : Option BadReason} {i : Instr} {s e u : State}
    (h : guarded f i s e = .next u) (hr : e.refusalMark = s.refusalMark)
    (hf : e.faultMark = s.faultMark) :
    (u.refusalMark = s.refusalMark ∧ u.faultMark = s.faultMark) ∨
    ∃ why, u = badAccess why (encode i) s := by
  rcases guarded_next h with ⟨-, rfl⟩ | ⟨why, -, rfl⟩
  · exact .inl ⟨hr, hf⟩
  · exact .inr ⟨why, rfl⟩

/-- An operation that answers a next state leaves the marks as they are, or has R64's outcome. -/
theorem exec_marks {i : Instr} {s u : State} (h : exec i s = .next u) :
    (u.refusalMark = s.refusalMark ∧ u.faultMark = s.faultMark) ∨
    ∃ why, u = badAccess why (encode i) s := by
  cases i with
  | mtimeR t l =>
    simp only [exec, execMtimeR] at h
    split at h
    · cases h
    · exact guarded_marks h rfl rfl
  | mtimeW t w =>
    simp only [exec, execMtimeW] at h
    split at h
    · cases h
    · exact guarded_marks h rfl rfl
  | mtimecmpR t i l =>
    simp only [exec, execMtimecmpR] at h
    split at h
    · cases h
    · exact guarded_marks h (by unfold readCompare; split <;> rfl)
        (by unfold readCompare; split <;> rfl)
  | mtimecmpW t i w =>
    simp only [exec, execMtimecmpW] at h
    split at h
    · cases h
    · exact guarded_marks h rfl rfl
  | mswiReserved m a =>
    simp only [exec, execMswiReserved] at h
    split at h
    · cases h
    · cases h
      exact .inr ⟨_, rfl⟩
  | msipR m i =>
    simp only [exec, execMsipR] at h
    split at h
    · cases h
    · exact guarded_marks h rfl rfl
  | msipW m i v =>
    simp only [exec, execMsipW] at h
    split at h
    · cases h
    · exact guarded_marks h rfl rfl
  | sswiReserved d a =>
    simp only [exec, execSswiReserved] at h
    split at h
    · cases h
    · cases h
      exact .inr ⟨_, rfl⟩
  | setssipR d i =>
    simp only [exec, execSetssipR] at h
    split at h
    · cases h
    · exact guarded_marks h rfl rfl
  | setssipW d i v =>
    simp only [exec, execSetssipW] at h
    split at h
    · cases h
    · exact guarded_marks h (by split <;> rfl) (by split <;> rfl)

/-- Under `ignore` R64's outcome leaves the marks as they are. -/
theorem badAccess_ignore_marks {s : State} (why : BadReason) (d : Descriptor)
    (h : s.cfg.badAccess = .ignore) :
    (badAccess why d s).refusalMark = s.refusalMark ∧
      (badAccess why d s).faultMark = s.faultMark := by
  rw [badAccess_ignore why d h]
  unfold ignoreAccess
  split <;> exact ⟨rfl, rfl⟩

/-- Under `ignore` no step sets a mark. -/
theorem step_unmarked_of_ignore {s u : State} (hc : s.cfg.badAccess = .ignore) (hm : s.Unmarked)
    (h : step s = .next u) : u.cfg.badAccess = .ignore ∧ u.Unmarked := by
  rcases step_did h with hq | ⟨a, rest, why, d, -, rfl⟩ | ⟨a, rest, r, off, i, -, -, -, -, he⟩ |
    ⟨s', c, hs, -, -, rfl⟩ | ⟨s', d, i, dev, hart, k, hs, -, -, -, -, rfl⟩ | ⟨hart, b, rest, -, rfl⟩
  · exact ⟨by rw [hq.1.1, hc], hq.2.1.trans hm.1, hq.2.2.trans hm.2⟩
  · obtain ⟨hr, hf⟩ := badAccess_ignore_marks
      (s := { s with agenda := rest, master := a.master }) why d hc
    exact ⟨by rw [badAccess_frame]; exact hc, hr.trans hm.1, hf.trans hm.2⟩
  · have hu : u.cfg = s.cfg := by
      rcases exec_effect he with ⟨_, _, hs⟩ | _ | _ | _ | _
      · exact hs.1
      all_goals rfl
    refine ⟨by rw [hu, hc], ?_⟩
    rcases exec_marks he with ⟨hr, hf⟩ | ⟨why, rfl⟩
    · exact ⟨hr.trans hm.1, hf.trans hm.2⟩
    · obtain ⟨hr, hf⟩ := badAccess_ignore_marks
        (s := { s with agenda := rest, master := a.master }) why (encode i) hc
      exact ⟨hr.trans hm.1, hf.trans hm.2⟩
  · exact ⟨by rw [State.setMtime_cfg, hs.1.1, hc], hs.2.1.trans hm.1, hs.2.2.trans hm.2⟩
  · exact ⟨hs.1.1 ▸ hc, hs.2.1.trans hm.1, hs.2.2.trans hm.2⟩
  · exact ⟨hc, hm⟩

/-- A run of one step more goes on from where the first step leads. -/
theorem run_succ (M : Host.Core) (n : Nat) {s u : M.State} (h : M.step s = .next u) :
    M.run (n + 1) s = M.run n u := by
  simp [Host.Core.run, h]

/-- A run of one step more that answers a next state has a first step that does. -/
theorem run_succ_next (M : Host.Core) {n : Nat} {s t : M.State} (h : M.run (n + 1) s = .next t) :
    ∃ u, M.step s = .next u ∧ M.run n u = .next t := by
  cases hs : M.step s with
  | next u => exact ⟨u, rfl, (run_succ M n hs).symm.trans h⟩
  | fault r => simp [Host.Core.run, hs] at h
  | refused r => simp [Host.Core.run, hs] at h

/-- Under `ignore` R40's premise holds of every run that begins unmarked. -/
theorem runUnmarked_of_ignore {s : State} (hc : s.cfg.badAccess = .ignore) (hm : s.Unmarked) :
    s.RunUnmarked := by
  intro n k t hk
  induction k generalizing s with
  | zero =>
    intro h
    cases h
    exact hm
  | succ k ih =>
    intro h
    obtain ⟨u, hs, hr⟩ := run_succ_next core h
    obtain ⟨hc', hm'⟩ := step_unmarked_of_ignore hc hm hs
    exact ih hc' hm' (Nat.le_of_succ_le hk) hr

/-! ### The internal agents -/

/-- An internal agent's move leaves the agenda and the marks as they are. -/
theorem runAgent_keeps (e : Option Event) (s : State) :
    (runAgent e s).agenda = s.agenda ∧ (runAgent e s).refusalMark = s.refusalMark ∧
      (runAgent e s).faultMark = s.faultMark := by
  unfold runAgent
  split
  · rename_i c
    rcases execTick_cases c s with ⟨-, h⟩ | ⟨-, h⟩ <;> rw [h] <;> exact ⟨rfl, rfl, rfl⟩
  · rename_i d i
    rcases execDeliver_cases d i s with ⟨_, _, _, _, _, h⟩ | h <;> rw [h] <;> exact ⟨rfl, rfl, rfl⟩
  · exact ⟨rfl, rfl, rfl⟩

/-- With nothing on the agenda, an event comes, or the agent whose turn it is moves. -/
theorem step_idle {s : State} (ha : s.agenda = []) : step s = .next (idle s) := by
  simp [step, ha]

/-- While patience lasts, an arbitrary event comes. -/
theorem idle_event {s : State} {p : Nat} (hp : s.patience = p + 1) :
    idle s = { s with agenda := [Config.freeEvent s.draws], patience := p, draws := s.draws + 1 } := by
  simp [idle, hp]

/-- With patience spent, the agent whose turn it is moves. -/
theorem idle_owed {s : State} (hp : s.patience = 0) :
    idle s = runAgent (agentAt s.cfg (s.turn % agentCount s.cfg))
      { s with turn := s.turn + 1, patience := s.freeNat, draws := s.draws + 1 } := by
  simp [idle, hp]

/-- The physical MTIME registers are those the MTIMERs name. -/
theorem mem_cells {cfg : Config} {c : Nat} :
    c ∈ cells cfg ↔ ∃ (t : Nat) (d : Mtimer), cfg.mtimers[t]? = some d ∧ d.mtimeCell = c := by
  have key : ∀ l : List Nat,
      c ∈ l.foldr (fun c acc => if c ∈ acc then acc else c :: acc) [] ↔ c ∈ l := by
    intro l
    induction l with
    | nil => simp
    | cons x l ih =>
      simp only [List.foldr_cons]
      split
      · rename_i hx
        simp only [List.mem_cons, ih]
        constructor
        · exact .inr
        · rintro (rfl | h)
          · exact ih.1 hx
          · exact h
      · simp only [List.mem_cons, ih]
  rw [cells, key, List.mem_map]
  constructor
  · rintro ⟨d, hd, rfl⟩
    obtain ⟨t, ht⟩ := List.mem_iff_getElem?.1 hd
    exact ⟨t, d, ht, rfl⟩
  · rintro ⟨t, d, ht, rfl⟩
    exact ⟨d, List.mem_of_getElem? ht, rfl⟩

/-- A hart index the map gives a hart is one the device serves, and the other way about. -/
theorem hartOf_isSome {rs : List HartRun} {i : Nat} :
    (hartOf rs i).isSome = true ↔ i < hartCount rs := by
  induction rs generalizing i with
  | nil => simp [hartOf, hartCount]
  | cons r rs ih =>
    by_cases h : i < r.count
    · simp only [hartOf, h, if_true, Option.isSome_some, hartCount, true_iff]
      omega
    · simp only [hartOf, h, if_false, ih, hartCount]
      omega

theorem hartOf_lt {rs : List HartRun} {i h : Nat} (hh : hartOf rs i = some h) : i < hartCount rs :=
  hartOf_isSome.1 (by simp [hh])

/-- Every hart index an SSWI serves has its DELIVER agent. -/
theorem deliverAgent_complete {devs : List SwiDevice} {d d₀ : Nat} {dev : SwiDevice} {i : HartIndex}
    (hd : devs[d]? = some dev) (hi : i.toNat < hartCount dev.harts) :
    ∃ k < (devs.map fun x => hartCount x.harts).sum,
      deliverAgent devs d₀ k = some (.deliver (d₀ + d) i) := by
  induction devs generalizing d d₀ with
  | nil => simp at hd
  | cons x devs ih =>
    cases d with
    | zero =>
      obtain rfl : x = dev := by simpa using hd
      refine ⟨i.toNat, by simp only [List.map_cons, List.sum_cons]; omega, ?_⟩
      simp [deliverAgent, hi]
    | succ d =>
      obtain ⟨k, hk, he⟩ := ih (d₀ := d₀ + 1) (by simpa using hd)
      refine ⟨hartCount x.harts + k, by simp only [List.map_cons, List.sum_cons]; omega, ?_⟩
      simp only [deliverAgent, Nat.not_lt.2 (Nat.le_add_right _ k), if_false,
        Nat.add_sub_cancel_left, he]
      rw [Nat.add_assoc, Nat.add_comm 1 d]

/-- Every cell has its TICK agent. -/
theorem agentAt_tick {cfg : Config} {c : Nat} (hc : c ∈ cells cfg) :
    ∃ k < agentCount cfg, agentAt cfg k = some (.tick c) := by
  obtain ⟨k, hk⟩ := List.mem_iff_getElem?.1 hc
  have hlt := (List.getElem?_eq_some_iff.1 hk).1
  exact ⟨k, by simp only [agentCount]; omega, by simp only [agentAt, hk]⟩

/-- Every hart index an SSWI serves has its DELIVER agent among the machine's agents. -/
theorem agentAt_deliver {cfg : Config} {d : Nat} {dev : SwiDevice} {i : HartIndex}
    (hd : cfg.sswis[d]? = some dev) (hi : i.toNat < hartCount dev.harts) :
    ∃ k < agentCount cfg, agentAt cfg k = some (.deliver d i) := by
  obtain ⟨k, hk, he⟩ := deliverAgent_complete (d₀ := 0) hd hi
  refine ⟨(cells cfg).length + k, by simp only [agentCount]; omega, ?_⟩
  have hn : (cells cfg)[(cells cfg).length + k]? = none := List.getElem?_eq_none (by omega)
  simp only [agentAt, hn, Nat.add_sub_cancel_left, he, Nat.zero_add]

end Sys2Proof.Machine
end

