-- ==== Sys2Proof/Tests/Slice0.lean ====
section
/-! SUPPORT. Tests. Every expected result comes from spec/ (the vectors S, V, T, M, W and programs P of
95_test_vectors.md, or the rule named), none from running the model. The last section has one witness
for every statement of Obligations.lean that has hypotheses. -/

namespace Sys2Proof.Tests

open Sys2Proof Sys2Proof.Machine

/-! ### A small platform

Two MTIMERs on one cell, an MTIMER with no hart on a cell of its own, one MSWI, one SSWI; master 7 is
kept from the SSWI. -/

def demo : Config where
  mtimers      := [ ⟨HartRun.block 0 2, 0x10000, 0x20000, 0⟩,
                    ⟨[⟨2, 1⟩], 0x10000, 0x30000, 0⟩,
                    ⟨[], 0x10008, 0x38000, 1⟩ ]
  mswis        := [ ⟨HartRun.block 0 3, 0x40000⟩ ]
  sswis        := [ ⟨[⟨5, 1⟩, ⟨3, 1⟩], 0x50000⟩ ]
  refFreqHz    := 10000000
  halfAccess64 := false
  badAccess    := .refuse
  mtimeWrap    := .wrap
  denied       := [(7, .sswi 0)]

def init : State := State.resetOf demo

/-- The same with half accesses and the choices given. -/
def initWith (half : Bool) (bad : BadAccess) (top : MtimeWrap) : State :=
  State.resetOf { demo with halfAccess64 := half, badAccess := bad, mtimeWrap := top }

/-- A view of the next state, if there is one. -/
def after {α : Type} (o : Out) (view : State → α) : Option α :=
  match o with
  | .next u => some (view u)
  | .fault _ => none
  | .refused _ => none

/-- The state whose agenda is one event. -/
def facing (e : Event) (s : State) : State := { s with agenda := [e] }

/-- One access, by master 1. -/
def access (addr : Nat) (op : BusOp) : Event := .bus ⟨1, addr, op⟩

/-! ### Well-formedness: an ill-formed term for each check (00_scope.md R8 to R10) -/

theorem test_wf_demo : demo.wf = true := by decide

/-- R10(a), (b): a hart served twice, by one device or by two of a kind. -/
theorem test_wf_harts :
    { demo with mtimers := [⟨[⟨0, 2⟩, ⟨1, 1⟩], 0x10000, 0x20000, 0⟩] }.wf = false ∧
    { demo with mswis := [⟨[⟨0, 2⟩], 0x40000⟩, ⟨[⟨1, 1⟩], 0x44000⟩] }.wf = false ∧
    { demo with sswis := [⟨[⟨0, 1⟩, ⟨0, 1⟩], 0x50000⟩] }.wf = false := by decide

/-- R10(c), R8: 4095 harts are admitted, 4096 are not. -/
theorem test_wf_count :
    { demo with mtimers := [⟨[⟨0, 4095⟩], 0x10000, 0x20000, 0⟩] }.wf = true ∧
    { demo with mtimers := [⟨[⟨0, 4096⟩], 0x10000, 0x20000, 0⟩] }.wf = false ∧
    { demo with mswis := [⟨[⟨0, 4096⟩], 0x40000⟩] }.wf = false ∧
    { demo with sswis := [⟨[⟨0, 4096⟩], 0x50000⟩] }.wf = false := by decide

/-- R10(d): regions that share an address; MTIME regions that coincide on two cells; one cell at two
addresses. -/
theorem test_wf_regions :
    { demo with mswis := [⟨[⟨0, 3⟩], 0x4C004⟩] }.wf = false ∧
    { demo with mtimers := [⟨[⟨0, 1⟩], 0x10000, 0x20000, 0⟩, ⟨[⟨1, 1⟩], 0x10000, 0x30000, 1⟩] }.wf =
      false ∧
    { demo with mtimers := [⟨[⟨0, 1⟩], 0x10000, 0x20000, 0⟩, ⟨[⟨1, 1⟩], 0x10008, 0x30000, 0⟩] }.wf =
      false := by decide

/-- R10(e), R9: bases off their alignment; no reference frequency. -/
theorem test_wf_alignment :
    { demo with mtimers := [⟨[⟨0, 1⟩], 0x10004, 0x20000, 0⟩] }.wf = false ∧
    { demo with mtimers := [⟨[⟨0, 1⟩], 0x10000, 0x20004, 0⟩] }.wf = false ∧
    { demo with mswis := [⟨[⟨0, 3⟩], 0x40002⟩] }.wf = false ∧
    { demo with sswis := [⟨[⟨0, 2⟩], 0x50001⟩] }.wf = false ∧
    { demo with refFreqHz := 0 }.wf = false := by decide

/-- R13: store data wider than the access. R8, R81: hart index 4095. R52: a device or a region the
configuration does not have. -/
theorem test_wf_operations :
    BusOp.wf (.store 4 0xFFFFFFFF) = true ∧ BusOp.wf (.store 4 0x100000000) = false ∧
    indexWf 4094 = true ∧ indexWf 4095 = false ∧
    Instr.encodable (.mtimecmpR 0 4095 .full) = false ∧
    Instr.encodable (.mtimecmpW 0 4095 (.full 0)) = false ∧
    Instr.encodable (.msipR 0 4095) = false ∧ Instr.encodable (.msipW 0 4095 0) = false ∧
    Instr.encodable (.setssipR 0 4095) = false ∧ Instr.encodable (.setssipW 0 4095 0) = false ∧
    Instr.wf demo (.mtimeR 2 .full) = true ∧ Instr.wf demo (.mtimeR 3 .full) = false ∧
    Instr.wf demo (.mtimecmpR 2 0 .full) = false ∧ Instr.wf demo (.msipR 1 0) = false ∧
    Instr.wf demo (.sswiReserved 1 .read) = false := by decide

/-! ### Decoding: words written out bit by bit from 30_encoding.md R81, one for each constructor -/

theorem test_decode_mtimeR :
    decode ⟨.mtime 0, 0b0000000000000000#16, .load 8⟩ = .ok (.mtimeR 0 .full) := by rfl

theorem test_decode_mtimeW :
    decode ⟨.mtime 0, 0b0000000000000000#16, .store 8 9⟩ = .ok (.mtimeW 0 (.full 9)) := by rfl

/-- S4. -/
theorem test_decode_mtimecmpR :
    decode ⟨.mtimecmp 1, 0b0111111111110000#16, .load 8⟩ = .ok (.mtimecmpR 1 4094 .full) := by rfl

/-- V6. -/
theorem test_decode_mtimecmpW :
    decode ⟨.mtimecmp 0, 0b0000000000011000#16, .store 8 7⟩ = .ok (.mtimecmpW 0 3 (.full 7)) := by rfl

/-- S8, V15; the row is taken for a write too. -/
theorem test_decode_mswiReserved :
    decode ⟨.mswi 0, 0b0011111111111100#16, .load 4⟩ = .ok (.mswiReserved 0 .read) ∧
    decode ⟨.mswi 0, 0b0011111111111100#16, .store 4 1⟩ = .ok (.mswiReserved 0 (.write 1)) :=
  ⟨rfl, rfl⟩

/-- V12. -/
theorem test_decode_msipR :
    decode ⟨.mswi 0, 0b0000000000001100#16, .load 4⟩ = .ok (.msipR 0 3) := by rfl

/-- S7. -/
theorem test_decode_msipW :
    decode ⟨.mswi 0, 0b0011111111111000#16, .store 4 2⟩ = .ok (.msipW 0 4094 2) := by rfl

/-- S12, V22. -/
theorem test_decode_sswiReserved :
    decode ⟨.sswi 0, 0b0011111111111100#16, .store 4 1⟩ = .ok (.sswiReserved 0 (.write 1)) := by rfl

/-- V20. -/
theorem test_decode_setssipR :
    decode ⟨.sswi 0, 0b0000000000000000#16, .load 4⟩ = .ok (.setssipR 0 0) := by rfl

/-- V19. -/
theorem test_decode_setssipW :
    decode ⟨.sswi 0, 0b0000000000000100#16, .store 4 1⟩ = .ok (.setssipW 0 1 1) := by rfl

/-- The halves of 20_memory.md R62: V4 and V10. -/
theorem test_decode_halves :
    decode ⟨.mtime 0, 0b0000000000000100#16, .load 4⟩ = .ok (.mtimeR 0 .high) ∧
    decode ⟨.mtimecmp 0, 0b0000000000001000#16, .store 4 6⟩ = .ok (.mtimecmpW 0 1 (.low 6)) :=
  ⟨rfl, rfl⟩

/-- V5 (a one-byte access is never misaligned), V9, V16, V17, V18, V23. -/
theorem test_decode_rejected :
    decode ⟨.mtime 0, 0x0003#16, .store 1 0⟩ = .error .wrongSize ∧
    decode ⟨.mtimecmp 0, 0x000C#16, .store 8 0⟩ = .error .misaligned ∧
    decode ⟨.mswi 0, 0x0000#16, .store 8 0⟩ = .error .wrongSize ∧
    decode ⟨.mswi 0, 0x0000#16, .store 2 0⟩ = .error .wrongSize ∧
    decode ⟨.mswi 0, 0x0002#16, .store 4 0⟩ = .error .misaligned ∧
    decode ⟨.sswi 0, 0x0000#16, .special .amo 4⟩ = .error .notPlain ∧
    decode ⟨.mtimecmp 0, 0x7FF8#16, .load 8⟩ = .error .outsideRegion := ⟨rfl, rfl, rfl, rfl, rfl, rfl, rfl⟩

/-- P4's physical accesses, on the CLINT at 0x0200_0000. -/
theorem test_locate_clint :
    locate (Config.clint 0x02000000 2) 0x02000004 = some (.mswi 0, 0x0004#16) ∧
    locate (Config.clint 0x02000000 2) 0x0200BFF8 = some (.mtime 0, 0x0000#16) ∧
    locate (Config.clint 0x02000000 2) 0x02004008 = some (.mtimecmp 0, 0x0008#16) ∧
    locate (Config.clint 0x02000000 2) 0x0200BFF0 = some (.mtimecmp 0, 0x7FF0#16) ∧
    locate (Config.clint 0x02000000 2) 0x0200C000 = none := by decide

/-- A shared MTIME is found through the first device on its cell (30_encoding.md R80). -/
theorem test_locate_shared :
    locate demo 0x10000 = some (.mtime 0, 0#16) ∧ locate demo 0x10008 = some (.mtime 2, 0#16) := by
  decide

/-- Opcode-table words, and the next step runs them from reset (log 2). -/
theorem test_table_words :
    decodeTableWord 16 0x0000 = some (.mtimeR 0 .full) ∧
    decodeTableWord 16 0x0008 = some (.mtimecmpR 0 1 .full) ∧
    decodeTableWord 16 0x3FFC = some (.mswiReserved 0 .read) ∧
    decodeTableWord 16 0x0004 = some (.msipR 0 1) ∧
    decodeTableWord 16 0xFFFF = none := by decide

theorem test_fetch_word :
    after (step (State.reset.withFetchWord 16 0x0004)) (fun u => (u.resp, u.agenda)) =
      some (some (.data32 0#32), []) := by decide

/-! ### MTIMER (T1 to T19) -/

/-- T1. -/
theorem test_mtimeR_initial :
    after (exec (.mtimeR 0 .full) init) (·.resp) = some (some (.data64 0#64)) := by decide

/-- T10, T11: MTIP(t, 0) and MTIP(t, 1) after the write. -/
theorem test_mtimeW_wires :
    let s := ((init.setMtime 0 500#64).setCompare 0 0 (Compare.known 1000#64)).setCompare 0 1
      (Compare.known 200#64)
    after (exec (.mtimeW 0 (.full 100#64)) s) (fun u => (u.mtipWire 0 0, u.mtipWire 0 1)) =
      some (some false, some false) ∧
    after (exec (.mtimeW 0 (.full 1000#64)) s) (fun u => (u.mtipWire 0 0, u.mtipWire 0 1)) =
      some (some true, some true) := by decide

/-- T19: the write through one device is seen through the other. -/
theorem test_mtimeW_shared :
    after (exec (.mtimeW 0 (.full 30#64)) (init.setCompare 1 0 (Compare.known 5#64)))
      (fun u => (after (exec (.mtimeR 1 .full) u) (·.resp), u.mtipWire 1 0)) =
      some (some (some (.data64 30#64)), some true) := by decide

/-- T3: a draw, and the register stays unknown. -/
theorem test_mtimecmpR_unknown :
    exec (.mtimecmpR 0 0 .full) init =
      .next { init with resp := some (.data64 (BitVec.ofNat 64 (Config.freeNat 0))), draws := 1 } := by
  rfl

/-- T16. -/
theorem test_mtimecmpR_known :
    after (exec (.mtimecmpR 0 0 .full) (init.setCompare 0 0 (Compare.known 0xA#64))) (·.resp) =
      some (some (.data64 0xA#64)) := by decide

/-- T4, T5: equality is pending; the largest value is not; the other wire stays a draw. -/
theorem test_mtimecmpW_wires :
    after (exec (.mtimecmpW 0 0 (.full 0#64)) init) (·.mtipWire 0 0) = some (some true) ∧
    after (exec (.mtimecmpW 0 0 (.full 0xFFFFFFFFFFFFFFFF#64)) init)
      (fun u => (u.mtipWire 0 0, u.mtipWire 0 1)) = some (some false, none) := by decide

/-- The half-access vector of section 2.2: the high half alone drops the compare value to 0. -/
theorem test_mtimecmpW_high :
    after (exec (.mtimecmpW 0 0 (.high 0#32))
      (((initWith true .refuse .wrap).setMtime 0 0x80000000#64).setCompare 0 0
        (Compare.known 0x100000000#64)))
      (fun u => ((u.getCompare 0 0).value, u.mtipWire 0 0)) = some (some 0#64, some true) := by decide

/-- T12: the comparison is unsigned. -/
theorem test_mtip_unsigned :
    ((init.setMtime 0 0x7FFFFFFFFFFFFFFF#64).setCompare 0 0
      (Compare.known 0x8000000000000000#64)).mtipWire 0 0 = some false := by decide

/-- T6, T13. -/
theorem test_tick :
    after (step (facing (.tick 0) ((init.setMtime 0 0xFF#64).setCompare 0 0 (Compare.known 0x100#64))))
      (fun u => (u.getMtime 0, u.mtipWire 0 0)) = some (0x100#64, some true) ∧
    after (step (facing (.tick 0) (init.setMtime 0 0x7FFFFFFFFFFFFFFF#64))) (·.getMtime 0) =
      some 0x8000000000000000#64 := by decide

/-- T14, T15. -/
theorem test_tick_top :
    after (step (facing (.tick 0) (init.setMtime 0 0xFFFFFFFFFFFFFFFF#64))) (·.getMtime 0) =
      some 0#64 ∧
    after (step (facing (.tick 0) ((initWith false .refuse .stuck).setMtime 0 0xFFFFFFFFFFFFFFFF#64)))
      (·.getMtime 0) = some 0xFFFFFFFFFFFFFFFF#64 := by decide

/-! ### MSWI (M1 to M12) -/

/-- M1, M3. -/
theorem test_msipR :
    after (exec (.msipR 0 0) init) (·.resp) = some (some (.data32 0#32)) ∧
    after (exec (.msipR 0 1) (init.setMsip 0 1 true)) (fun u => (u.resp, u.getMsip 0 1)) =
      some (some (.data32 1#32), true) := by decide

/-- M6, M7, M9: only bit 0 counts. -/
theorem test_msipW :
    after (exec (.msipW 0 2 0xFFFFFFFF#32) init) (·.msipWire 0 2) = some true ∧
    after (exec (.msipW 0 2 0xFFFFFFFE#32) (init.setMsip 0 2 true)) (·.msipWire 0 2) = some false ∧
    after (exec (.msipW 0 2 0x80000001#32) init) (·.msipWire 0 2) = some true := by decide

/-- M12, V13: an unconnected slot is refused and nothing is written. -/
theorem test_msipW_unconnected :
    after (exec (.msipW 0 3 1#32) init) (fun u => (u.refusalMark, u.msip)) =
      some (some ⟨0, .unconnected, ⟨.mswi 0, 0x000C#16, .store 4 1⟩⟩, []) := by decide

/-- M11. -/
theorem test_mswiReserved :
    after (exec (.mswiReserved 0 (.write 1#32)) init) (fun u => (u.refusalMark.isSome, u.msip)) =
      some (true, []) := by decide

/-! ### SSWI (W1 to W15) -/

/-- W1, W3. -/
theorem test_setssipR :
    after (exec (.setssipR 0 0) init) (·.resp) = some (some (.data32 0#32)) ∧
    after (exec (.setssipR 0 1) (init.setInflight 0 1 1)) (fun u => (u.resp, u.getInflight 0 1)) =
      some (some (.data32 0#32), 1) := by decide

/-- W2, W4, W8, W9, W10. -/
theorem test_setssipW :
    after (exec (.setssipW 0 1 1#32) init) (fun u => (u.getInflight 0 1, u.ssip)) = some (1, []) ∧
    after (exec (.setssipW 0 1 0#32) (init.setInflight 0 1 1)) (·.getInflight 0 1) = some 1 ∧
    after (exec (.setssipW 0 1 2#32) init) (·.getInflight 0 1) = some 0 ∧
    after (exec (.setssipW 0 1 0xFFFFFFFF#32) init) (·.getInflight 0 1) = some 1 ∧
    after (exec (.setssipW 0 1 1#32) (init.setInflight 0 1 1)) (·.getInflight 0 1) = some 2 := by decide

/-- W14. -/
theorem test_sswiReserved :
    after (exec (.sswiReserved 0 (.write 1#32)) init) (fun u => (u.refusalMark.isSome, u.inflight)) =
      some (true, []) := by decide

/-- W5's state: one edge in flight to hart index 1, the platform hart 3, whose SSIP is 0. -/
def oneEdge : State := (init.setInflight 0 1 1).setSsip 3 false

/-- W5. -/
theorem test_deliver :
    after (step (facing (.deliver 0 1) oneEdge)) (fun u => (u.getInflight 0 1, u.getSsip 3)) =
      some (0, true) := by
  have h : ∀ f, edgesTaken f 1 = 1 := fun f => by simp [edgesTaken, Nat.mod_one]
  show some (((({ oneEdge with agenda := [] }.setInflight 0 1
    (1 - edgesTaken _ 1)).setSsip 3 true).drawn 1).getInflight 0 1, true) = _
  rw [h]
  rfl

/-- W6. -/
theorem test_deliver_nothing :
    after (step (facing (.deliver 0 1) init)) (fun u => (u.inflight, u.ssip)) = some ([], []) := by
  decide

/-! ### The outcome of an access the source does not define, and the platform's own (R64, R183, R80) -/

/-- V3 under each choice: refused, faulted at the register's address, or answered with a draw. -/
theorem test_badAccess :
    after (step (facing (access 0x10000 (.load 4)) init)) (fun u => (u.resp, u.refusalMark.isSome)) =
      some (some .refused, true) ∧
    after (step (facing (access 0x10000 (.load 4)) (initWith false .fault .wrap))) (·.faultMark) =
      some (some ⟨0x10000, .load⟩) ∧
    after (step (facing (access 0x10000 (.store 4 1)) (initWith false .ignore .wrap)))
      (fun u => (u.resp, u.mtime)) = some (some .ack, []) := by decide

/-- Master 7 may not reach the SSWI; the address above it is in no region. -/
theorem test_blocked :
    after (step (facing (.bus ⟨7, 0x50000, .store 4 1⟩) init)) (fun u => (u.resp, u.inflight)) =
      some (some .blocked, []) ∧
    after (step (facing (access 0x60000 (.load 4)) init)) (·.resp) = some (some .notAclint) := by decide

/-- 60_exceptions.md R172, R175: hart 2 has the timer of device 1 and no SSWI; hart 9 has nothing. -/
theorem test_sampleMip :
    after (step (facing (.sampleMip 2) ((init.setCompare 1 0 (Compare.known 1#64)).setMsip 0 2 true)))
      (fun u => u.mipView.map fun v => (v.mtip, v.msip)) = some (some (some false, some true)) ∧
    after (step (facing (.sampleMip 9) init)) (fun u => u.mipView.map fun v => (v.mtip, v.msip)) =
      some (some (none, none)) := by decide

/-- R176, R158: before any write, two looks at one hart agree on SSIP, the hart's initial bit. -/
theorem test_sampleMip_twice :
    after (step (facing (.sampleMip 9) init)) (fun u => u.mipView.map (·.ssip)) =
      some (some (Config.initialSsip 9)) ∧
    after (Host.Core.run core 2 { init with agenda := [.sampleMip 9, .sampleMip 9] })
      (fun u => u.mipView.map (·.ssip)) = some (some (Config.initialSsip 9)) := ⟨rfl, rfl⟩

/-! ### Witnesses: the hypotheses of each statement of Obligations.lean can be met together

`full` has a known and an unknown compare register, a pending MSIP, two edges in flight and an SSIP. -/

def full : State :=
  (((((init.setMtime 0 0x10#64).setCompare 0 0 (Compare.known 0x20#64)).setMsip 0 1 true).setInflight
    0 1 2).setInflight 0 0 1).setSsip 3 false

/-- `full` with half accesses. -/
def fullHalf : State := { full with cfg := { demo with halfAccess64 := true } }

/-- The MTIMERs, the MSWI and the SSWI of the small platform. -/
def t0 : Mtimer := ⟨HartRun.block 0 2, 0x10000, 0x20000, 0⟩
def t1 : Mtimer := ⟨[⟨2, 1⟩], 0x10000, 0x30000, 0⟩
def m0 : SwiDevice := ⟨HartRun.block 0 3, 0x40000⟩
def s0 : SwiDevice := ⟨[⟨5, 1⟩, ⟨3, 1⟩], 0x50000⟩

theorem witness_EncodedInstructionDecodes :
    Instr.encodable (.mtimecmpW 0 4094 (.high 1)) = true ∧ Instr.encodable (.msipW 0 4094 1) = true := by
  decide

theorem witness_DecodedDescriptorIsItsEncoding :
    BusOp.wf (.store 4 0xFFFFFFFF) = true ∧
    decode ⟨.mswi 0, 0x3FF8#16, .store 4 0xFFFFFFFF⟩ = .ok (.msipW 0 4094 0xFFFFFFFF) :=
  ⟨by decide, rfl⟩

/-- Both clauses: a row selects, and none does, with and without a half access. -/
theorem witness_DecodeAgreesWithOperationTable :
    BusOp.plain (.load 8) = true ∧ (0x7FF0#16).toNat < (Region.mtimecmp 0).size ∧
    (opTable.find? fun r => r.selects .mtimecmp .load 8 0x7FF0#16).isSome = true ∧
    opTable.find? (fun r => r.selects .mtimecmp .load 8 0x7FF4#16) = none ∧
    opTable.find? (fun r => r.selects .mtimecmp .load 4 0x7FF4#16) = none := by decide

theorem witness_MisalignedAccessIsNoOperation :
    BusOp.plain (.load 8) = true ∧ (0x7FF4#16).toNat < (Region.mtimecmp 0).size ∧
    (0x7FF4#16).toNat % (BusOp.load 8).bytes ≠ 0 := by decide

/-- One for each size named. -/
theorem witness_WrongSizeAccessIsNoOperation :
    BusOp.plain (.load 1) = true ∧ (7#16).toNat < (Region.mtime 0).size ∧ (7#16).toNat % 1 = 0 ∧
    (6#16).toNat % 2 = 0 ∧ (0#16).toNat % 16 = 0 ∧ 8 < (BusOp.load 16).bytes ∧
    (0x3FF8#16).toNat < (Region.mswi 0).size ∧ (0x3FF8#16).toNat % (BusOp.load 8).bytes = 0 ∧
    (Region.mswi 0).kind = .mswi := by decide

theorem witness_SpecialAccessIsNoOperation : (0x3FFC#16).toNat < (Region.sswi 0).size := by decide

/-- The last byte of a region. -/
theorem witness_LocatedAddressIsInItsRegion :
    locate demo 0x53FFF = some (.sswi 0, 0x3FFF#16) := by decide

/-- A region of its own at its last byte, and a shared MTIME through its second device. -/
theorem witness_EveryRegionAddressIsLocated :
    demo.wf = true ∧ demo.hasRegion (.mtimecmp 0) = true ∧
    regionBase demo (.mtimecmp 0) = some 0x20000 ∧ 0x7FF7 < (Region.mtimecmp 0).size ∧
    demo.hasRegion (.mtime 1) = true ∧ regionBase demo (.mtime 1) = some 0x10000 ∧
    7 < (Region.mtime 1).size := by decide

theorem witness_PhysicalAccessReachesOperation :
    demo.wf = true ∧ Instr.wf demo (.mtimeW 0 (.full 5)) = true ∧
    (∀ t d, (encode (.mtimeW 0 (.full 5))).region = .mtime t → demo.mtimers[t]? = some d →
      ∀ t' d', t' < t → demo.mtimers[t']? = some d' → d'.mtimeCell ≠ d.mtimeCell) := by
  refine ⟨by decide, by decide, ?_⟩
  intro t d h _ t' d' hlt
  cases h
  exact absurd hlt (Nat.not_lt_zero _)

/-- Each clause at its last index or address. -/
theorem witness_ClintLayout :
    (0 : Nat) < 1 ∧ 4095 ≤ 4095 ∧ 4094 ≤ 4094 ∧ (0x3FFF < 0x4000 ∨ 0x4000 + 0xC000 ≤ 0x3FFF) ∧
    (0x10000 < 0x4000 ∨ 0x4000 + 0xC000 ≤ 0x10000) := by decide

theorem witness_ClintConfigurationIsWellFormed : 0x02000000 % 8 = 0 ∧ 4095 ≤ 4095 := by decide

theorem witness_HartMapsAreDisjoint :
    demo.wf = true ∧ (demo.mtimers.map (·.harts))[1]? = some [⟨2, 1⟩] ∧ hartOf [⟨2, 1⟩] 0 = some 2 := by
  decide

theorem witness_HartLookupInvertsHartMaps : demo.wf = true := test_wf_demo

theorem witness_MtimeReadAnswersCounter : full.cfg.mtimers[0]? = some t0 := by decide

theorem witness_MtimeWriteStoresCounter :
    full.cfg.mtimers[1]? = some t1 ∧ t0.mtimeCell = t1.mtimeCell ∧ 1 ≠ t1.mtimeCell ∧
    (full.getCompare 0 0).value = some 0x20#64 := by decide

theorem witness_SharedMtimeIsOneRegister :
    full.cfg.mtimers[0]? = some t0 ∧ full.cfg.mtimers[1]? = some t1 ∧ t0.mtimeCell = t1.mtimeCell := by
  decide

/-- A known register, and an unknown one at the last index served. -/
theorem witness_MtimecmpReadAnswersValueOrDraw :
    full.cfg.mtimers[0]? = some t0 ∧ (0#12).toNat < hartCount t0.harts ∧
    (full.getCompare 0 0).value = some 0x20#64 ∧ (1#12).toNat < hartCount t0.harts ∧
    (full.getCompare 0 1).value = none := by decide

theorem witness_MtimecmpWriteStoresCompare :
    full.cfg.mtimers[0]? = some t0 ∧ (1#12).toNat < hartCount t0.harts ∧
    ¬ ((0 : Nat) = 0 ∧ (0#12 : HartIndex) = 1#12) := by decide

/-- A known register and an unknown one; and an MTIMER with no harts. -/
theorem witness_HalfReadsAnswerHalves :
    fullHalf.cfg.mtimers[2]? = some ⟨[], 0x10008, 0x38000, 1⟩ ∧
    fullHalf.cfg.halfAccess64 = true ∧ fullHalf.cfg.mtimers[0]? = some t0 ∧
    (1#12).toNat < hartCount t0.harts ∧ (fullHalf.getCompare 0 0).value = some 0x20#64 ∧
    (fullHalf.getCompare 0 1).value = none ∧ Lane.low ≠ .full ∧ Lane.high ≠ .full := by decide

theorem witness_HalfWritesOfMtime :
    fullHalf.cfg.halfAccess64 = true ∧ fullHalf.cfg.mtimers[0]? = some t0 ∧ 1 ≠ t0.mtimeCell := by decide

theorem witness_HalfWritesOfMtimecmp :
    fullHalf.cfg.halfAccess64 = true ∧ fullHalf.cfg.mtimers[0]? = some t0 ∧
    (1#12).toNat < hartCount t0.harts := by decide

/-- The second clause, and for the first an MTIMER with no harts. -/
theorem witness_HalfAccessesAreUndefinedByDefault :
    full.cfg.mtimers[2]? = some ⟨[], 0x10008, 0x38000, 1⟩ ∧
    full.cfg.halfAccess64 = false ∧ Lane.high ≠ .full ∧ (WriteData.low 1).lane ≠ .full ∧
    full.cfg.mtimers[0]? = some t0 ∧ (1#12).toNat < hartCount t0.harts := by decide

/-- At equality and one below it; and an unknown register. -/
theorem witness_MtipIsUnsignedComparison :
    full.cfg.mtimers[0]? = some t0 ∧
    ((full.setMtime 0 0x20#64).getCompare 0 0).value = some 0x20#64 ∧
    ((full.setMtime 0 0x1F#64).getCompare 0 0).value = some 0x20#64 ∧
    (full.getCompare 0 1).value = none := by decide

theorem witness_MsipReadAnswersBit :
    full.cfg.mswis[0]? = some m0 ∧ (1#12).toNat < hartCount m0.harts ∧ full.getMsip 0 1 = true ∧
    full.getMsip 0 2 = false ∧ (1#12).toNat ≤ 4094 := by decide

theorem witness_MsipWriteStoresBitZero :
    full.cfg.mswis[0]? = some m0 ∧ (2#12).toNat < hartCount m0.harts ∧
    (2#12).toNat ≤ 4094 ∧ ¬ ((0 : Nat) = 0 ∧ (1#12 : HartIndex) = 2#12) := by decide

theorem witness_MsipReadsBackOneBit :
    full.cfg.mswis[0]? = some m0 ∧ (2#12).toNat < hartCount m0.harts := by decide

theorem witness_SetssipReadsZero :
    full.cfg.sswis[0]? = some s0 ∧ (1#12).toNat < hartCount s0.harts ∧ full.getInflight 0 1 = 2 ∧
    (1#12).toNat ≤ 4094 := by decide

/-- Both clauses: bit 0 clear, and set. -/
theorem witness_SetssipWriteSendsEdge :
    full.cfg.sswis[0]? = some s0 ∧ (1#12).toNat < hartCount s0.harts ∧
    (0xFFFFFFFE#32).getLsbD 0 = false ∧ (0x80000001#32).getLsbD 0 = true := by decide

theorem witness_ReservedWordsHaveBadOutcome :
    0 < full.cfg.mswis.length ∧ 0 < full.cfg.sswis.length := by decide

/-- The first index not served, in each kind of device. -/
theorem witness_UnconnectedSlotsHaveBadOutcome :
    full.cfg.mtimers[0]? = some t0 ∧ hartCount t0.harts ≤ (2#12).toNat ∧
    full.cfg.mswis[0]? = some m0 ∧ hartCount m0.harts ≤ (3#12).toNat ∧
    full.cfg.sswis[0]? = some s0 ∧ hartCount s0.harts ≤ (2#12).toNat := by decide

theorem witness_UndecodedAccessHasBadOutcome :
    (facing (access 0x50001 (.load 4)) full).agenda = [access 0x50001 (.load 4)] ∧
    locate full.cfg 0x50001 = some (.sswi 0, 1#16) ∧ mayAccess full.cfg 1 (.sswi 0) = true ∧
    decode ⟨.sswi 0, 1#16, .load 4⟩ = .error .misaligned := ⟨rfl, by decide, by decide, rfl⟩

theorem witness_BlockedAccessNeverReachesDevice :
    (facing (.bus ⟨7, 0x50000, .store 4 1⟩) full).agenda = [.bus ⟨7, 0x50000, .store 4 1⟩] ∧
    locate full.cfg 0x50000 = some (.sswi 0, 0#16) ∧ mayAccess full.cfg 7 (.sswi 0) = false :=
  ⟨rfl, by decide, by decide⟩

theorem witness_AccessOutsideRegionsChangesNoDevice :
    (facing (access 0x54000 (.load 4)) full).agenda = [access 0x54000 (.load 4)] ∧
    locate full.cfg 0x54000 = none := ⟨rfl, by decide⟩

theorem witness_StepRunsDecodedInstruction :
    (facing (access 0x20008 (.store 8 1)) full).agenda = [access 0x20008 (.store 8 1)] ∧
    locate full.cfg 0x20008 = some (.mtimecmp 0, 8#16) ∧
    mayAccess full.cfg 1 (Region.mtimecmp 0).device = true ∧
    decode ⟨.mtimecmp 0, 8#16, .store 8 1⟩ = .ok (.mtimecmpW 0 1 (.full 1)) :=
  ⟨rfl, by decide, by decide, rfl⟩

theorem witness_TickAdvancesItsCell :
    (facing (.tick 0) full).agenda = [.tick 0] ∧ 0 ∈ cells full.cfg ∧
    full.getMtime 0 ≠ BitVec.allOnes 64 ∧ full.cfg.mtimers[0]? = some t0 ∧ t0.mtimeCell = 0 ∧
    (full.getCompare 0 0).value = some 0x20#64 := by decide

/-- Both clauses. -/
theorem witness_TickAtTheTop :
    0 ∈ cells demo ∧
    (((initWith false .refuse .wrap).setMtime 0 (BitVec.allOnes 64)).getMtime 0 = BitVec.allOnes 64 ∧
      (initWith false .refuse .wrap).cfg.mtimeWrap = .wrap) ∧
    (((initWith false .refuse .stuck).setMtime 0 (BitVec.allOnes 64)).getMtime 0 = BitVec.allOnes 64 ∧
      (initWith false .refuse .stuck).cfg.mtimeWrap = .stuck) := by decide

theorem witness_DeliverSetsSsip :
    (facing (.deliver 0 1) full).agenda = [.deliver 0 1] ∧ full.cfg.sswis[0]? = some s0 ∧
    hartOf s0.harts (1#12).toNat = some 3 ∧ 0 < full.getInflight 0 1 := by decide

theorem witness_DeliverNeedsAnEdge :
    (facing (.deliver 0 1) init).agenda = [.deliver 0 1] ∧ init.getInflight 0 1 = 0 := by decide

/-- Harts with a known and an unknown timer wire, an MSIP wire, and one that no device serves. -/
theorem witness_HartSeesItsWires :
    full.cfg.wf = true ∧ (facing (.sampleMip 0) full).agenda = [.sampleMip 0] ∧
    hartOf t0.harts (0#12).toNat = some 0 ∧ full.mtipWire 0 0 = some false ∧
    hartOf t0.harts (1#12).toNat = some 1 ∧ (full.getCompare 0 1).value = none ∧
    hartOf m0.harts (0#12).toNat = some 0 ∧ full.getSsip 3 = false ∧
    findHart (demo.mtimers.map (·.harts)) 0 9 = none ∧
    findHart (demo.mswis.map (·.harts)) 0 9 = none := by decide

theorem witness_HartWritesItsSsip :
    (facing (.writeSsip 3 true) full).agenda = [.writeSsip 3 true] ∧ 4 ≠ 3 := by decide

/-- A read of each of the four kinds; the last is of an index not served. -/
theorem witness_ReadsHaveNoSideEffect :
    ∀ i ∈ [Instr.mtimeR 2 .full, .mtimecmpR 1 0 .full, .msipR 0 2, .setssipR 0 4094],
      i.isRead = true ∧ full.cfg.hasRegion (encode i).region = true := by decide

theorem witness_DeviceKindsAreIndependent :
    ∃ u, exec (.msipW 0 2 1#32) full = .next u ∧
      ∀ t, (encode (.msipW 0 2 1#32)).region ≠ .mtime t := ⟨_, rfl, fun _ h => nomatch h⟩

theorem witness_MasterDoesNotMatter :
    (∀ r off, locate full.cfg 0x40004 = some (r, off) →
      mayAccess full.cfg 1 r.device = true ∧ mayAccess full.cfg 7 r.device = true) ∧
    ∃ u, performBus ⟨1, 0x40004, .load 4⟩ full = .next u := by
  refine ⟨?_, _, rfl⟩
  intro r off h
  have hl : locate full.cfg 0x40004 = some (.mswi 0, 4#16) := by decide
  rw [hl] at h
  cases h
  decide

/-- The invariant holds in a state that holds something in every bank. -/
theorem full_inv : full.Inv := by
  have hc : full.mtimecmp = [(0, Compare.known 0x20#64)] := by decide
  have hm : full.msip = [(1, true)] := by decide
  have hi : full.inflight = [(0, 1), (1, 2)] := by decide
  refine ⟨by decide, ⟨by decide, ?_, ?_, ?_⟩, fun _ => ?_⟩
  · simp only [hc, List.mem_singleton, forall_eq]
    exact ⟨HartRun.block 0 2, by decide, by decide⟩
  · simp only [hm, List.mem_singleton, forall_eq]
    exact ⟨HartRun.block 0 3, by decide, by decide⟩
  · simp only [hi, List.mem_cons, List.not_mem_nil, or_false, forall_eq_or_imp, forall_eq]
    exact ⟨⟨s0.harts, by decide, by decide⟩, ⟨s0.harts, by decide, by decide⟩⟩
  · decide

theorem witness_StepKeepsInvariant : full.Inv ∧ ∃ u, step full = .next u := ⟨full_inv, _, rfl⟩

theorem witness_ConfigurationNeverChanges : ∃ u, step full = .next u := ⟨_, rfl⟩

/-- Both marks set; a step with no access; and a run that ends unmarked. -/
theorem witness_MarksAreSticky :
    (∃ u, step { full with refusalMark := some ⟨0, .reserved, ⟨.mswi 0, 0x3FFC#16, .load 4⟩⟩,
                           faultMark := some ⟨0, .load⟩ } = .next u) ∧
    (∀ a rest, full.agenda ≠ .bus a :: rest) ∧
    ∃ t, Host.Core.run core 1 (facing (.tick 0) full) = .next t ∧ t.Unmarked :=
  ⟨⟨_, rfl⟩, fun _ _ h => List.cons_ne_nil _ _ (h.symm.trans (rfl : full.agenda = [])),
    _, rfl, rfl, rfl⟩

theorem witness_CompareStaysKnown :
    (∃ u, step full = .next u) ∧ (full.getCompare 0 0).value ≠ none := ⟨⟨_, rfl⟩, by decide⟩

theorem witness_MsipChangesOnlyByItsWrite :
    after (step (facing (access 0x40004 (.store 4 0)) full)) (·.getMsip 0 1) = some false ∧
    full.getMsip 0 1 = true := by decide

theorem witness_CompareChangesOnlyByItsWrite :
    after (step (facing (access 0x20000 (.store 8 5)) full)) (·.getCompare 0 0) =
      some (Compare.known 5#64) ∧ full.getCompare 0 0 = Compare.known 0x20#64 := by decide

/-- Both ways back; a tick by its event, and one by the devices themselves (the first agent's turn). -/
theorem witness_MtimeGoesBackOnlyByWriteOrWrap :
    after (step (facing (access 0x10000 (.store 8 5)) full)) (fun u => (u.getMtime 0).toNat) = some 5 ∧
    (full.getMtime 0).toNat = 0x10 ∧
    after (step (facing (.tick 0) (full.setMtime 0 (BitVec.allOnes 64))))
      (fun u => (u.getMtime 0).toNat) = some 0 ∧
    after (step (facing (.tick 0) full)) (fun u => (u.getMtime 0).toNat) = some 0x11 ∧
    full.agenda = [] ∧ after (step full) (fun u => (u.getMtime 0).toNat) = some 0x11 := by decide

/-- An edge enters; an edge leaves (test_deliver: from 1 to 0). -/
theorem witness_EdgesAreNeverDropped :
    after (step (facing (access 0x50004 (.store 4 1)) full)) (·.getInflight 0 1) = some 3 ∧
    full.getInflight 0 1 = 2 ∧
    after (step (facing (.deliver 0 1) oneEdge)) (fun u => u.getInflight 0 1) = some 0 := by
  refine ⟨by decide, by decide, ?_⟩
  have h := congrArg (Option.map Prod.fst) test_deliver
  exact h

/-- The hart's own software; a delivery (test_deliver). -/
theorem witness_SsipChangesOnlyByHartOrDelivery :
    after (step (facing (.writeSsip 3 true) full)) (·.getSsip 3) = some true ∧
    full.getSsip 3 = false ∧
    after (step (facing (.deliver 0 1) oneEdge)) (fun u => u.getSsip 3) = some true ∧
    oneEdge.getSsip 3 = false :=
  ⟨by decide, by decide, congrArg (Option.map Prod.snd) test_deliver, by decide⟩

/-- `full`, and an MTIME one below the top under `stuck`, where undefined accesses are ignored: R40's
premise holds of every run from them (runUnmarked_of_ignore). -/
def fullIgnore : State := { full with cfg := { demo with badAccess := .ignore } }

def stuckIgnore : State := (initWith false .ignore .stuck).setMtime 0 0xFFFFFFFFFFFFFFFE#64

theorem witness_TicksAddUp :
    { fullIgnore with agenda := [.tick 0, .tick 0, .tick 0, .sampleMip 0] }.UnmarkedFor 3 ∧
    fullIgnore.cfg.mtimeWrap = .wrap ∧ 0 ∈ cells fullIgnore.cfg ∧
    { fullIgnore with agenda := [.tick 0, .tick 0, .tick 0, .sampleMip 0] }.agenda =
      List.replicate 3 (.tick 0) ++ [.sampleMip 0] :=
  ⟨runUnmarked_of_ignore rfl ⟨rfl, rfl⟩ 3, by decide, by decide, by decide⟩

theorem witness_DeliveryIsGuaranteed :
    fullIgnore.RunUnmarked ∧ fullIgnore.cfg.sswis[0]? = some s0 ∧
    hartOf s0.harts (1#12).toNat = some 3 ∧ 0 < fullIgnore.getInflight 0 1 :=
  ⟨runUnmarked_of_ignore rfl ⟨rfl, rfl⟩, by decide, by decide, by decide⟩

/-- Under wrap; and under stuck, one below the top. -/
theorem witness_EveryCellTicksAgain :
    (fullIgnore.RunUnmarked ∧ 1 ∈ cells fullIgnore.cfg ∧ fullIgnore.cfg.mtimeWrap = .wrap) ∧
    (stuckIgnore.RunUnmarked ∧ 0 ∈ cells stuckIgnore.cfg ∧
      stuckIgnore.getMtime 0 ≠ BitVec.allOnes 64) :=
  ⟨⟨runUnmarked_of_ignore rfl ⟨rfl, rfl⟩, by decide, by decide⟩,
    ⟨runUnmarked_of_ignore rfl ⟨rfl, rfl⟩, by decide, by decide⟩⟩

end Sys2Proof.Tests
end

namespace Sys2Proof

/-! ### Well-formed configurations (00_scope.md R10) -/

/-- What R10 asks of a configuration, as propositions. -/
theorem Config.wf_iff {cfg : Config} : cfg.wf = true ↔
    (hartsDisjoint (cfg.mtimers.flatMap (·.harts)) = true ∧
      hartsDisjoint (cfg.mswis.flatMap (·.harts)) = true ∧
      hartsDisjoint (cfg.sswis.flatMap (·.harts)) = true) ∧
    ((∀ d ∈ cfg.mtimers, hartCount d.harts ≤ 4095) ∧
      (∀ d ∈ cfg.mswis, hartCount d.harts ≤ 4095) ∧
      (∀ d ∈ cfg.sswis, hartCount d.harts ≤ 4095)) ∧
    (regions cfg).Pairwise (fun p q => p.compatible q = true) ∧
    ((∀ d ∈ cfg.mtimers, d.mtimeBase % 8 = 0 ∧ d.mtimecmpBase % 8 = 0) ∧
      (∀ d ∈ cfg.mswis, d.base % 4 = 0) ∧
      (∀ d ∈ cfg.sswis, d.base % 4 = 0)) ∧
    0 < cfg.refFreqHz := by
  simp only [Config.wf, Bool.and_eq_true, List.all_eq_true, decide_eq_true_eq, and_assoc]

@[simp] theorem hartCount_block (first n : Nat) : hartCount (HartRun.block first n) = n := rfl

/-- A single run shares no hart with another. -/
@[simp] theorem hartsDisjoint_block (first n : Nat) :
    hartsDisjoint (HartRun.block first n) = true := by
  simp [hartsDisjoint, HartRun.block]

/-- The regions of a CLINT: MTIME, then MTIMECMP if there is a hart, then the MSWI's (R52, R58). -/
theorem regions_clint (B n : Nat) :
    regions (Config.clint B n) =
      [⟨.mtime 0, B + 0xBFF8, some 0⟩] ++
      (if 0 < n then [⟨.mtimecmp 0, B + 0x4000, none⟩] else []) ++
      [⟨.mswi 0, B, none⟩] := by
  by_cases hn : 0 < n <;>
    simp [regions, Config.clint, hn, placedMtime, placedMtimecmp, placedMswi]

/-- Regions that share no address are compatible, if they are not two MTIME regions. -/
theorem Placed.compatible_of_apart {p q : Placed} (hcell : p.cell = none ∨ q.cell = none)
    (h : p.base + p.region.size ≤ q.base ∨ q.base + q.region.size ≤ p.base) :
    p.compatible q = true := by
  rcases p with ⟨r, base, _ | c⟩ <;> rcases q with ⟨r', base', _ | c'⟩
  case some.some => simp at hcell
  all_goals simpa [Placed.compatible] using h

/-- The regions of a CLINT share no address: they follow one another. -/
theorem regions_clint_compatible (B n : Nat) :
    (regions (Config.clint B n)).Pairwise (fun p q => p.compatible q = true) := by
  have hmtime_cmp : Placed.compatible ⟨.mtime 0, B + 0xBFF8, some 0⟩
      ⟨.mtimecmp 0, B + 0x4000, none⟩ = true :=
    Placed.compatible_of_apart (.inr rfl) (.inr (by simp only [Region.size]; omega))
  have hmtime_mswi : Placed.compatible ⟨.mtime 0, B + 0xBFF8, some 0⟩ ⟨.mswi 0, B, none⟩ = true :=
    Placed.compatible_of_apart (.inr rfl) (.inr (by simp only [Region.size]; omega))
  have hcmp_mswi : Placed.compatible ⟨.mtimecmp 0, B + 0x4000, none⟩ ⟨.mswi 0, B, none⟩ = true :=
    Placed.compatible_of_apart (.inr rfl) (.inr (by simp only [Region.size]; omega))
  rw [regions_clint]
  split <;> simp [hmtime_cmp, hmtime_mswi, hcmp_mswi]

/-- R10: the CLINT-compatible configuration is well-formed. -/
theorem clint_wf {B n : Nat} (hB : B % 8 = 0) (hn : n ≤ 4095) : (Config.clint B n).wf = true := by
  have hmtimer : (B + 0xBFF8) % 8 = 0 ∧ (B + 0x4000) % 8 = 0 := by omega
  have hmswi : B % 4 = 0 := by omega
  refine Config.wf_iff.2 ⟨?harts, ?counts, regions_clint_compatible B n, ?bases, ?freq⟩
  case harts => exact ⟨hartsDisjoint_block 0 n, hartsDisjoint_block 0 n, rfl⟩
  case counts => simpa [Config.clint] using hn
  case bases => simpa [Config.clint] using ⟨hmtimer, hmswi⟩
  case freq => simp [Config.clint]

/-- Settles O12: the CLINT's three regions follow one another and its bases are aligned; the standard
configuration is one closed check. -/
theorem clintConfigurationIsWellFormed : Obligations.ClintConfigurationIsWellFormed :=
  ⟨fun _ _ => clint_wf, by decide⟩

/-! ### Hart maps (R10(a), R10(b)) -/

/-- The run stands for hart `h`. -/
def HartRun.Has (r : HartRun) (h : Nat) : Prop := r.first ≤ h ∧ h < r.first + r.count

/-- Two runs that share no hart do not both stand for one. -/
theorem HartRun.disjoint_not_has {a b : HartRun} {h : Nat} (hd : a.disjoint b = true)
    (ha : a.Has h) : ¬ b.Has h := by
  simp only [HartRun.disjoint, decide_eq_true_eq] at hd
  simp only [HartRun.Has] at *
  omega

/-- A hart of the map stands in one of its runs. -/
theorem hartOf_has {rs : List HartRun} {i h : Nat} (hh : hartOf rs i = some h) :
    ∃ r ∈ rs, r.Has h := by
  induction rs generalizing i with
  | nil => cases hh
  | cons r rs ih =>
    rw [hartOf] at hh
    split at hh
    · rename_i hi
      cases hh
      exact ⟨r, List.mem_cons_self, Nat.le_add_right .., Nat.add_lt_add_left hi _⟩
    · obtain ⟨r', hr', hhas⟩ := ih hh
      exact ⟨r', List.mem_cons_of_mem _ hr', hhas⟩

/-- Two hart maps whose runs share no hart serve no common hart. -/
theorem hartOf_ne_of_disjoint {ra rb : List HartRun} {i j h : Nat}
    (hd : ∀ a ∈ ra, ∀ b ∈ rb, a.disjoint b = true)
    (hi : hartOf ra i = some h) : hartOf rb j ≠ some h := by
  intro hj
  obtain ⟨a, ha, hah⟩ := hartOf_has hi
  obtain ⟨b, hb, hbh⟩ := hartOf_has hj
  exact HartRun.disjoint_not_has (hd a ha b hb) hah hbh

/-- The hart map of runs that share no hart is injective (R10(a)). -/
theorem hartOf_injective {rs : List HartRun} {i j h : Nat}
    (hd : rs.Pairwise fun a b => a.disjoint b = true)
    (hi : hartOf rs i = some h) (hj : hartOf rs j = some h) : i = j := by
  induction rs generalizing i j with
  | nil => cases hi
  | cons r rs ih =>
    obtain ⟨hr, hrs⟩ := List.pairwise_cons.1 hd
    have first_run : ∀ {k l : Nat}, k < r.count → r.first + k = h → hartOf rs l ≠ some h := by
      intro k l hk hkh hl
      obtain ⟨b, hb, hbh⟩ := hartOf_has hl
      exact HartRun.disjoint_not_has (hr b hb) ⟨by omega, by omega⟩ hbh
    rw [hartOf] at hi hj
    split at hi <;> split at hj
    · cases hi
      injection hj with hj
      omega
    · exact absurd hj (first_run ‹_› (Option.some.inj hi))
    · exact absurd hi (first_run ‹_› (Option.some.inj hj))
    · have := ih hrs hi hj
      omega

end Sys2Proof

namespace Sys2Proof.Machine

/-- Devices whose runs, taken together, share no hart have disjoint hart maps (R10(a), R10(b)). -/
theorem disjointHartMaps_of_flatten {devices : List (List HartRun)}
    (hd : devices.flatten.Pairwise fun a b => a.disjoint b = true) : DisjointHartMaps devices := by
  induction devices with
  | nil =>
    intro a b ra rb i j h ha
    simp at ha
  | cons rs rest ih =>
    rw [List.flatten_cons, List.pairwise_append] at hd
    obtain ⟨hrs, hrest, hcross⟩ := hd
    have apart : ∀ {b : Nat} {rb : List HartRun} {i j h : Nat}, rest[b]? = some rb →
        hartOf rs i = some h → hartOf rb j ≠ some h := fun hb =>
      hartOf_ne_of_disjoint fun x hx y hy =>
        hcross x hx y (List.mem_flatten.2 ⟨_, List.mem_of_getElem? hb, hy⟩)
    intro a b ra rb i j h ha hb hi hj
    cases a with
    | zero =>
      cases ha
      cases b with
      | zero =>
        cases hb
        exact ⟨rfl, hartOf_injective hrs hi hj⟩
      | succ b => exact absurd hj (apart hb hi)
    | succ a =>
      cases b with
      | zero =>
        cases hb
        exact absurd hi (apart ha hj)
      | succ b =>
        obtain ⟨rfl, rfl⟩ := ih hrest a b ra rb i j h ha hb hi hj
        exact ⟨rfl, rfl⟩

/-- The check on one kind's devices gives them disjoint hart maps. -/
theorem disjointHartMaps_of_hartsDisjoint {α : Type} {devs : List α} {harts : α → List HartRun}
    (h : hartsDisjoint (devs.flatMap harts) = true) : DisjointHartMaps (devs.map harts) := by
  rw [hartsDisjoint, decide_eq_true_eq, List.flatMap_def] at h
  exact disjointHartMaps_of_flatten h

/-- Settles O13: the runs of each kind's devices, taken together, share no hart. -/
theorem hartMapsAreDisjoint : Obligations.HartMapsAreDisjoint := by
  intro cfg hwf
  obtain ⟨⟨hmt, hms, hss⟩, -⟩ := Config.wf_iff.1 hwf
  exact ⟨disjointHartMaps_of_hartsDisjoint hmt, disjointHartMaps_of_hartsDisjoint hms,
    disjointHartMaps_of_hartsDisjoint hss⟩

/-! ### Kinds of devices (R4) -/

/-- Settles O45: by the effects an operation can have, each of which writes one kind's bank. -/
theorem deviceKindsAreIndependent : Obligations.DeviceKindsAreIndependent := by
  intro s u i h
  cases exec_effect h with
  | nothing _ _ hs =>
    obtain ⟨-, hmtime, hcmp, hmsip, hinflight, hssip⟩ := hs
    exact ⟨hssip, fun _ => hmtime, fun _ => hcmp, fun _ => hmsip, fun _ => hinflight⟩
  | mtime t => exact ⟨rfl, fun hne => absurd rfl (hne t), fun _ => rfl, fun _ => rfl, fun _ => rfl⟩
  | mtimecmp t => exact ⟨rfl, fun _ => rfl, fun hne => absurd rfl (hne t), fun _ => rfl, fun _ => rfl⟩
  | msip m => exact ⟨rfl, fun _ => rfl, fun _ => rfl, fun hne => absurd rfl (hne m), fun _ => rfl⟩
  | edge m => exact ⟨rfl, fun _ => rfl, fun _ => rfl, fun _ => rfl, fun hne => absurd rfl (hne m)⟩

/-! ### Every step goes on, on the same configuration (R14, R64, R9) -/

/-- An access of a bus master answers a next state: a located region exists, and the operation the
access decodes to is one of that region. -/
theorem performBus_total (a : BusAccess) (s : State) : ∃ u, performBus a s = .next u := by
  unfold performBus
  split
  · exact ⟨_, rfl⟩
  · rename_i r off hl
    split
    · unfold performDescriptor
      split
      · rename_i i hi
        exact exec_total (by rw [decode_region hi]; exact locate_hasRegion hl)
      · exact ⟨_, rfl⟩
    · exact ⟨_, rfl⟩

theorem perform_total (e : Event) (s : State) : ∃ u, perform e s = .next u := by
  cases e with
  | bus a => exact performBus_total a s
  | tick c => exact ⟨_, rfl⟩
  | deliver d i => exact ⟨_, rfl⟩
  | sampleMip h => exact ⟨_, rfl⟩
  | writeSsip h b => exact ⟨_, rfl⟩

/-- Settles O49: an empty agenda is an idle step, and every event answers a next state. -/
theorem everyStepGoesOn : Obligations.EveryStepGoesOn := by
  intro s
  unfold step
  split
  · exact ⟨_, rfl⟩
  · exact perform_total _ _

/-- An operation leaves the configuration as it is. -/
theorem exec_cfg {i : Instr} {s u : State} (h : exec i s = .next u) : u.cfg = s.cfg := by
  cases exec_effect h with
  | nothing _ _ hs => exact hs.1
  | mtime => rfl
  | mtimecmp => rfl
  | msip => rfl
  | edge => rfl

/-- Settles O50: by the cases of what a step can do. -/
theorem configurationNeverChanges : Obligations.ConfigurationNeverChanges := by
  intro s u h
  cases step_did h with
  | quiet hs => exact hs.1.1
  | undefined a rest why d _ hu => exact hu ▸ (badAccess_sameDevices why d _).1
  | operation a rest r off i _ _ _ _ he =>
    exact exec_cfg (s := { s with agenda := rest, master := a.master }) he
  | tick s' c hs _ _ hu => exact hu ▸ hs.1.1
  | deliver s' d i dev h k hs _ _ _ _ hu => exact hu ▸ hs.1.1
  | hartWrite h b rest _ hu => exact hu ▸ rfl

end Sys2Proof.Machine

namespace Sys2Proof

/-! ### Which accesses decode to a write (30_encoding.md R80, R86) -/

/-- A load decodes to an operation whose encoding is a load. -/
theorem decodeLoad_dir {r : Region} {n : Nat} {off : Offset} {i : Instr}
    (h : decodeLoad r n off = some i) : (encode i).op.dir = .load := by
  cases r <;> simp only [decodeLoad, Option.map_eq_some_iff] at h <;> obtain ⟨p, -, rfl⟩ := h
  case mtime => rfl
  case mtimecmp => rfl
  case mswi => cases p <;> rfl
  case sswi => cases p <;> rfl

/-- What is encoded as a store is decoded only from a store, inside the region. -/
theorem decode_store_of_dir {r : Region} {off : Offset} {op : BusOp} {i : Instr}
    (h : decode ⟨r, off, op⟩ = .ok i) (hdir : (encode i).op.dir = .store) :
    ∃ n v, op = .store n v ∧ off.toNat < r.size ∧ decodeStore r n v off = some i := by
  cases op with
  | load n =>
    rw [decodeLoad_dir (decode_load h).2] at hdir
    cases hdir
  | store n v => exact ⟨n, v, rfl, decode_store h⟩
  | special k n => exact absurd h (decode_special r k n off i)

/-- An access that decodes to MSIP.W is a 4-byte store at that register, the word its data. -/
theorem decode_msipW {r : Region} {off : Offset} {op : BusOp} {m : Nat} {i : HartIndex}
    {w : Word32} (h : decode ⟨r, off, op⟩ = .ok (.msipW m i w)) :
    r = .mswi m ∧ off = offsetI i ∧ ∃ v, op = .store 4 v ∧ w = BitVec.ofNat 32 v := by
  obtain rfl : Region.mswi m = r := decode_region h
  obtain ⟨n, v, rfl, hsize, hst⟩ := decode_store_of_dir h rfl
  simp only [decodeStore, Option.map_eq_some_iff] at hst
  obtain ⟨slot, hslot, hst⟩ := hst
  cases slot with
  | reservedWord => cases hst
  | register j =>
    cases hst
    obtain ⟨rfl, hoff, -⟩ := formatI_some hsize hslot
    exact ⟨rfl, hoff, v, rfl, rfl⟩

/-- An access that decodes to MTIMECMP.W is a store at a part of that register. -/
theorem decode_mtimecmpW {r : Region} {off : Offset} {op : BusOp} {t : Nat} {i : HartIndex}
    {w : WriteData} (h : decode ⟨r, off, op⟩ = .ok (.mtimecmpW t i w)) :
    r = .mtimecmp t ∧ (∃ lane, off = offsetC i lane) ∧ ∃ n v, op = .store n v := by
  obtain rfl : Region.mtimecmp t = r := decode_region h
  obtain ⟨n, v, rfl, -, hst⟩ := decode_store_of_dir h rfl
  simp only [decodeStore, Option.map_eq_some_iff] at hst
  obtain ⟨⟨j, lane⟩, hfmt, hst⟩ := hst
  cases hst
  exact ⟨rfl, ⟨lane, (formatC_some hfmt).2⟩, n, v, rfl⟩

/-- The part of a compare register an offset names lies in the eight bytes of its index. -/
theorem offsetC_div (i : HartIndex) (l : Lane) : (offsetC i l).toNat / 8 = i.toNat := by
  have h := offsetC_toNat i l
  cases l <;> simp [Lane.lowBits] at h <;> omega

end Sys2Proof

namespace Sys2Proof.Machine

/-! ### The invariant of the state (10_state.md R22, R23, R25, R29) -/

/-- What holds of every entry of a bank, and of the entry written where it is not the default,
holds of every entry after the write. -/
theorem Bank.forall_write {α : Type} [DecidableEq α] {dflt : α} {b : Bank α} {P : Nat × α → Prop}
    {k : Nat} {v : α} (hb : ∀ e ∈ b, P e) (hv : v ≠ dflt → P (k, v)) :
    ∀ e ∈ Bank.write dflt b k v, P e := by
  intro e he
  rcases Bank.mem_write he with ⟨rfl, hne⟩ | ⟨hold, -⟩
  · exact hv hne
  · exact hb e hold

/-- The key of a register is served where its device, in the list of its kind, serves its index. -/
theorem served_slotKey {α : Type} {devices : List α} {harts : α → List HartRun} {d : Nat} {dev : α}
    {i : HartIndex} (hd : devices[d]? = some dev) (hi : i.toNat < hartCount (harts dev)) :
    served (devices.map harts) (slotKey d i) := by
  have hlt := i.isLt
  have hdev : slotKey d i / 4096 = d := by simp only [slotKey]; omega
  have hidx : slotKey d i % 4096 = i.toNat := by simp only [slotKey]; omega
  exact ⟨harts dev, by rw [hdev, List.getElem?_map, hd, Option.map_some], hidx ▸ hi⟩

/-- The invariant speaks of the devices only. -/
theorem State.Inv.of_sameDevices {s t : State} (h : s.Inv) (hs : s.SameDevices t) : t.Inv := by
  obtain ⟨hcfg, hmtime, hcmp, hmsip, hinflight, hssip⟩ := hs
  obtain ⟨hcanonical, hreal, hwhole⟩ := h
  refine ⟨?_, ?_, ?_⟩
  · rwa [State.Canonical, hmtime, hcmp, hmsip, hinflight, hssip]
  · rwa [State.OnlyRealRegisters, hcfg, hmtime, hcmp, hmsip, hinflight]
  · rwa [State.WholeCompares, hcfg, hcmp]

section

variable {s : State} (h : s.Inv)

include h

theorem State.Inv.setMtime {c : Nat} (hc : c ∈ cells s.cfg) (v : Word64) :
    (s.setMtime c v).Inv := by
  obtain ⟨⟨wmtime, wrest⟩, ⟨rmtime, rrest⟩, hwhole⟩ := h
  exact ⟨⟨Bank.write_wf _ _ wmtime, wrest⟩, ⟨Bank.forall_write rmtime fun _ => hc, rrest⟩, hwhole⟩

theorem State.Inv.setCompare {t : Nat} {i : HartIndex} {c : Compare}
    (hk : served (s.cfg.mtimers.map (·.harts)) (slotKey t i))
    (hc : s.cfg.halfAccess64 = false → c.value ≠ none) : (s.setCompare t i c).Inv := by
  obtain ⟨⟨wmtime, wcmp, wrest⟩, ⟨rmtime, rcmp, rrest⟩, hwhole⟩ := h
  exact ⟨⟨wmtime, Bank.write_wf _ _ wcmp, wrest⟩,
    ⟨rmtime, Bank.forall_write rcmp fun _ => hk, rrest⟩,
    fun hhalf => Bank.forall_write (hwhole hhalf) fun _ => hc hhalf⟩

theorem State.Inv.setMsip {m : Nat} {i : HartIndex}
    (hk : served (s.cfg.mswis.map (·.harts)) (slotKey m i)) (b : Bool) : (s.setMsip m i b).Inv := by
  obtain ⟨⟨wmtime, wcmp, wmsip, wrest⟩, ⟨rmtime, rcmp, rmsip, rinflight⟩, hwhole⟩ := h
  exact ⟨⟨wmtime, wcmp, Bank.write_wf _ _ wmsip, wrest⟩,
    ⟨rmtime, rcmp, Bank.forall_write rmsip fun _ => hk, rinflight⟩, hwhole⟩

theorem State.Inv.setInflight {d : Nat} {i : HartIndex}
    (hk : served (s.cfg.sswis.map (·.harts)) (slotKey d i)) (n : Nat) :
    (s.setInflight d i n).Inv := by
  obtain ⟨⟨wmtime, wcmp, wmsip, winflight, wssip⟩, ⟨rmtime, rcmp, rmsip, rinflight⟩, hwhole⟩ := h
  exact ⟨⟨wmtime, wcmp, wmsip, Bank.write_wf _ _ winflight, wssip⟩,
    ⟨rmtime, rcmp, rmsip, Bank.forall_write rinflight fun _ => hk⟩, hwhole⟩

theorem State.Inv.setSsip (hart : Nat) (b : Bool) : (s.setSsip hart b).Inv := by
  obtain ⟨⟨wmtime, wcmp, wmsip, winflight, wssip⟩, hreal, hwhole⟩ := h
  exact ⟨⟨wmtime, wcmp, wmsip, winflight, Bank.write_wf hart (some b) wssip⟩, hreal, hwhole⟩

end

/-- Without half accesses an admitted write is a whole one, and gives the register a value
(R62, R114). -/
theorem writeCompare_whole {cfg : Config} {w : WriteData} (hw : laneForbidden cfg w.lane = none)
    (hhalf : cfg.halfAccess64 = false) (c : Compare) : (writeCompare c w).value ≠ none := by
  cases w with
  | full v => simp [writeCompare_full]
  | low v => simp [WriteData.lane, laneForbidden, hhalf] at hw
  | high v => simp [WriteData.lane, laneForbidden, hhalf] at hw

/-- Every operation keeps the invariant: a write is admitted only for a register that exists. -/
theorem exec_keeps_inv {s u : State} {i : Instr} (h : s.Inv) (he : exec i s = .next u) : u.Inv := by
  cases exec_effect he with
  | nothing _ _ hs => exact h.of_sameDevices hs
  | mtime t w d hd _ =>
    have hc : d.mtimeCell ∈ cells s.cfg := mem_cells.2 ⟨t, d, hd, rfl⟩
    exact (h.setMtime hc _).of_sameDevices (State.sameDevices_respond _ _)
  | mtimecmp t i w d hd hi hw =>
    exact (h.setCompare (served_slotKey hd hi) fun hhalf =>
      writeCompare_whole hw hhalf _).of_sameDevices (State.sameDevices_respond _ _)
  | msip m i v d hd hi =>
    exact (h.setMsip (served_slotKey hd hi) _).of_sameDevices (State.sameDevices_respond _ _)
  | edge m i v d hd hi _ =>
    exact (h.setInflight (served_slotKey hd hi) _).of_sameDevices (State.sameDevices_respond _ _)

/-- Settles O48: by the cases of what a step can do; each register it writes is one that exists. -/
theorem stepKeepsInvariant : Obligations.StepKeepsInvariant := by
  intro s u h hstep
  cases step_did hstep with
  | quiet hs => exact h.of_sameDevices hs.1
  | undefined a rest why d _ hu =>
    exact hu ▸ h.of_sameDevices
      (badAccess_sameDevices why d { s with agenda := rest, master := a.master })
  | operation a rest r off i _ _ _ _ he =>
    have h' : State.Inv { s with agenda := rest, master := a.master } :=
      h.of_sameDevices State.SameDevices.rfl
    exact exec_keeps_inv h' he
  | tick s' c hs _ ht hu =>
    have hc : c ∈ cells s'.cfg := hs.1.1 ▸ (tickEnabled_iff.1 ht).1
    exact hu ▸ (h.of_sameDevices hs.1).setMtime hc _
  | deliver s' d i dev hart k hs _ hd hh _ hu =>
    have hk : served (s'.cfg.sswis.map (·.harts)) (slotKey d i) :=
      hs.1.1 ▸ served_slotKey hd (hartOf_lt hh)
    exact hu ▸ (((h.of_sameDevices hs.1).setInflight hk _).setSsip hart true).of_sameDevices
      (State.sameDevices_drawn _ _)
  | hartWrite hart b rest _ hu =>
    have h' : State.Inv { s with agenda := rest } := h.of_sameDevices State.SameDevices.rfl
    exact hu ▸ h'.setSsip hart b

/-! ### What changes an MSIP bit and a compare register (R134, R114) -/

theorem State.SameDevices.getMsip {s t : State} (h : s.SameDevices t) (m : Nat) (i : HartIndex) :
    t.getMsip m i = s.getMsip m i := by
  obtain ⟨-, -, -, hmsip, -, -⟩ := h
  rw [State.getMsip, hmsip, State.getMsip]

theorem State.SameDevices.getCompare {s t : State} (h : s.SameDevices t) (d : Nat) (i : HartIndex) :
    t.getCompare d i = s.getCompare d i := by
  obtain ⟨-, -, hcmp, -, -, -⟩ := h
  rw [State.getCompare, hcmp, State.getCompare]

/-- An operation that changes an MSIP bit is MSIP.W of that register and stores its word's bit 0. -/
theorem exec_changes_msip {s u : State} {instr : Instr} {m : Nat} {i : HartIndex}
    (h : exec instr s = .next u) (hne : u.getMsip m i ≠ s.getMsip m i) :
    ∃ v, instr = .msipW m i v ∧ u.getMsip m i = warlBit v := by
  cases exec_effect h with
  | nothing _ _ hs => exact absurd (hs.getMsip m i) hne
  | mtime => exact absurd rfl hne
  | mtimecmp => exact absurd rfl hne
  | msip m' i' v =>
    by_cases hreg : m = m' ∧ i = i'
    · obtain ⟨rfl, rfl⟩ := hreg
      exact ⟨v, rfl, s.getMsip_setMsip_same m i _⟩
    · exact absurd (s.getMsip_setMsip_other _ hreg) hne
  | edge => exact absurd rfl hne

/-- An operation that changes a compare register is MTIMECMP.W of that register. -/
theorem exec_changes_compare {s u : State} {instr : Instr} {t : Nat} {i : HartIndex}
    (h : exec instr s = .next u) (hne : u.getCompare t i ≠ s.getCompare t i) :
    ∃ w, instr = .mtimecmpW t i w := by
  cases exec_effect h with
  | nothing _ _ hs => exact absurd (hs.getCompare t i) hne
  | mtime => exact absurd rfl hne
  | mtimecmp t' i' w =>
    by_cases hreg : t = t' ∧ i = i'
    · obtain ⟨rfl, rfl⟩ := hreg
      exact ⟨w, rfl⟩
    · exact absurd (s.getCompare_setCompare_other _ hreg) hne
  | msip => exact absurd rfl hne
  | edge => exact absurd rfl hne

/-- A step that changes an MSIP bit or a compare register did the operation an access of a bus
master decodes to: R64's outcome, a TICK, a DELIVER and a hart's own write change neither. -/
theorem step_changes_register {s u : State} (h : step s = .next u)
    (hne : u.mtimecmp ≠ s.mtimecmp ∨ u.msip ≠ s.msip) :
    ∃ a rest r off instr, s.agenda = .bus a :: rest ∧ locate s.cfg a.addr = some (r, off) ∧
      decode ⟨r, off, a.op⟩ = .ok instr ∧
      exec instr { s with agenda := rest, master := a.master } = .next u := by
  have unchanged : ¬ (u.mtimecmp = s.mtimecmp ∧ u.msip = s.msip) :=
    fun ⟨hcmp, hmsip⟩ => hne.elim (· hcmp) (· hmsip)
  have sameDevices : ¬ s.SameDevices u := fun ⟨_, _, hcmp, hmsip, _, _⟩ => unchanged ⟨hcmp, hmsip⟩
  cases step_did h with
  | quiet hs => exact absurd hs.1 sameDevices
  | undefined a rest why d _ hu =>
    subst hu
    exact absurd (badAccess_sameDevices why d { s with agenda := rest, master := a.master })
      sameDevices
  | operation a rest r off i ha hl _ hd he => exact ⟨a, rest, r, off, i, ha, hl, hd, he⟩
  | tick s' c hs _ _ hu =>
    obtain ⟨⟨-, -, hcmp, hmsip, -, -⟩, -⟩ := hs
    exact absurd (hu ▸ ⟨hcmp, hmsip⟩) unchanged
  | deliver s' d i dev hart k hs _ _ _ _ hu =>
    obtain ⟨⟨-, -, hcmp, hmsip, -, -⟩, -⟩ := hs
    exact absurd (hu ▸ ⟨hcmp, hmsip⟩) unchanged
  | hartWrite hart b rest _ hu => exact absurd (hu ▸ ⟨rfl, rfl⟩) unchanged

/-- Settles O53: the step did an operation, that operation is MSIP.W of the register, and only a
4-byte store at the register decodes to it. -/
theorem msipChangesOnlyByItsWrite : Obligations.MsipChangesOnlyByItsWrite := by
  intro s u m i hstep hne
  have hbank : u.msip ≠ s.msip := fun hb => hne (by rw [State.getMsip, hb, State.getMsip])
  obtain ⟨a, rest, r, off, instr, ha, hl, hd, he⟩ := step_changes_register hstep (.inr hbank)
  obtain ⟨w, rfl, hbit⟩ := exec_changes_msip he hne
  obtain ⟨rfl, rfl, v, hop, rfl⟩ := decode_msipW hd
  exact ⟨a, rest, v, ha, hop, hl, hbit.trans (getLsbD_zero_ofNat v)⟩

/-- Settles O54: the step did an operation, that operation is MTIMECMP.W of the register, and only a
store in the register's eight bytes decodes to it. -/
theorem compareChangesOnlyByItsWrite : Obligations.CompareChangesOnlyByItsWrite := by
  intro s u t i hstep hne
  have hbank : u.mtimecmp ≠ s.mtimecmp := fun hb =>
    hne (by rw [State.getCompare, hb, State.getCompare])
  obtain ⟨a, rest, r, off, instr, ha, hl, hd, he⟩ := step_changes_register hstep (.inl hbank)
  obtain ⟨w, rfl⟩ := exec_changes_compare he hne
  obtain ⟨rfl, ⟨lane, rfl⟩, n, v, hop⟩ := decode_mtimecmpW hd
  exact ⟨a, rest, n, v, _, ha, hop, hl, offsetC_div i lane⟩

/-! ### The marks (R40) -/

/-- A step leaves both marks as they are, or an access of a bus master had R64's outcome. -/
theorem step_marks {s u : State} (h : step s = .next u) :
    (u.refusalMark = s.refusalMark ∧ u.faultMark = s.faultMark) ∨
    ∃ a rest why d, s.agenda = .bus a :: rest ∧
      u = badAccess why d { s with agenda := rest, master := a.master } := by
  cases step_did h with
  | quiet hs => exact .inl hs.2
  | undefined a rest why d ha hu => exact .inr ⟨a, rest, why, d, ha, hu⟩
  | operation a rest r off i ha _ _ _ he =>
    rcases exec_marks he with hm | ⟨why, hu⟩
    · exact .inl hm
    · exact .inr ⟨a, rest, why, encode i, ha, hu⟩
  | tick s' c hs _ _ hu => exact .inl (hu ▸ hs.2)
  | deliver s' d i dev hart k hs _ _ _ _ hu => exact .inl (hu ▸ hs.2)
  | hartWrite hart b rest _ hu => exact .inl (hu ▸ ⟨rfl, rfl⟩)

theorem step_refusalMark {s u : State} (h : step s = .next u) {r : RefusedAccess}
    (hr : s.refusalMark = some r) : u.refusalMark = some r := by
  rcases step_marks h with ⟨hm, -⟩ | ⟨a, rest, why, d, -, rfl⟩
  · exact hm.trans hr
  · exact badAccess_refusalMark why d hr

theorem step_faultMark {s u : State} (h : step s = .next u) {f : AccessFault}
    (hf : s.faultMark = some f) : u.faultMark = some f := by
  rcases step_marks h with ⟨-, hm⟩ | ⟨a, rest, why, d, -, rfl⟩
  · exact hm.trans hf
  · exact badAccess_faultMark why d hf

/-- A state from which a step leads to an unmarked one is unmarked. -/
theorem unmarked_of_step {s u : State} (h : step s = .next u) (hu : u.Unmarked) : s.Unmarked := by
  obtain ⟨hrefusal, hfault⟩ := hu
  refine ⟨Option.eq_none_iff_forall_ne_some.2 fun r hr => ?_,
    Option.eq_none_iff_forall_ne_some.2 fun f hf => ?_⟩
  · exact Option.some_ne_none r ((step_refusalMark h hr).symm.trans hrefusal)
  · exact Option.some_ne_none f ((step_faultMark h hf).symm.trans hfault)

/-- A run that ends unmarked was unmarked at each of its steps. -/
theorem run_unmarked {n : Nat} {s t : State} (h : Host.Core.run core n s = .next t)
    (ht : t.Unmarked) : ∀ k ≤ n, ∃ v, Host.Core.run core k s = .next v ∧ v.Unmarked := by
  induction n generalizing s with
  | zero =>
    intro k hk
    obtain rfl := Nat.le_zero.1 hk
    exact ⟨t, h, ht⟩
  | succ n ih =>
    obtain ⟨u, hs, hr⟩ := run_succ_next core h
    intro k hk
    cases k with
    | zero =>
      obtain ⟨v, hv, hm⟩ := ih hr 0 n.zero_le
      cases hv
      exact ⟨s, rfl, unmarked_of_step hs hm⟩
    | succ k =>
      obtain ⟨v, hv, hm⟩ := ih hr k (Nat.le_of_succ_le_succ hk)
      exact ⟨v, (run_succ core k hs).trans hv, hm⟩

/-- Settles O51: only R64's outcome touches a mark, and it keeps one that is set. -/
theorem marksAreSticky : Obligations.MarksAreSticky := by
  refine ⟨fun s u h => ⟨fun _ => step_refusalMark h, fun _ => step_faultMark h, fun hbus => ?_⟩,
    fun n s t => run_unmarked⟩
  rcases step_marks h with hm | ⟨a, rest, _, _, ha, -⟩
  · exact hm
  · exact absurd ha (hbus a rest)

/-! ### Reset (R30 to R34, R200) -/

/-- Settles O15: at reset every bank is empty, and an unlisted register reads as its reset value. -/
theorem resetRegisterValues : Obligations.ResetRegisterValues :=
  fun _ _ _ _ => ⟨rfl, rfl, rfl, rfl⟩

/-- Settles O16: at reset the banks are empty and the marks clear. -/
theorem resetLeavesNothingPending : Obligations.ResetLeavesNothingPending :=
  ⟨fun _ _ _ _ => ⟨rfl, ⟨rfl, rfl⟩, rfl, rfl⟩, rfl⟩

end Sys2Proof.Machine

namespace Sys2Proof

/-! ### Which sizes and offsets decode (20_memory.md R60 to R63, R67) -/

/-- An access of `n` bytes at an offset of the region is one R60 or R62 names: aligned, and of 4 bytes,
or of 8 bytes at a 64-bit register. -/
def Region.Admits (r : Region) (n : Nat) (off : Offset) : Prop :=
  off.toNat % n = 0 ∧ (n = 4 ∨ n = 8 ∧ (r.kind = .mtime ∨ r.kind = .mtimecmp))

theorem formatT_admits {t n : Nat} {off : Offset} {l : Lane}
    (hsize : off.toNat < (Region.mtime t).size) (h : formatT n off = some l) :
    (Region.mtime t).Admits n off := by
  obtain ⟨rfl, rfl⟩ := formatT_some hsize h
  cases l <;> simp [Region.Admits, Region.kind, Lane.bytes, offsetT_toNat, Lane.lowBits]

theorem formatC_admits {t n : Nat} {off : Offset} {p : HartIndex × Lane}
    (h : formatC n off = some p) : (Region.mtimecmp t).Admits n off := by
  obtain ⟨i, l⟩ := p
  obtain ⟨rfl, rfl⟩ := formatC_some h
  cases l <;> simp [Region.Admits, Region.kind, Lane.bytes, offsetC_toNat, Lane.lowBits] <;> omega

theorem formatI_admits {r : Region} {n : Nat} {off : Offset} {slot : Slot}
    (hsize : off.toNat < 0x4000) (h : formatI n off = some slot) : r.Admits n off := by
  obtain ⟨rfl, hoff⟩ := formatI_some hsize h
  refine ⟨?_, .inl rfl⟩
  cases slot with
  | reservedWord => rw [hoff]; rfl
  | register i => rw [hoff.1, offsetI_toNat, Nat.mul_mod_right]

theorem decodeLoad_admits {r : Region} {n : Nat} {off : Offset} {i : Instr}
    (hsize : off.toNat < r.size) (h : decodeLoad r n off = some i) : r.Admits n off := by
  cases r <;> simp only [decodeLoad, Option.map_eq_some_iff] at h <;> obtain ⟨p, hp, -⟩ := h
  case mtime => exact formatT_admits hsize hp
  case mtimecmp => exact formatC_admits hp
  case mswi => exact formatI_admits hsize hp
  case sswi => exact formatI_admits hsize hp

theorem decodeStore_admits {r : Region} {n v : Nat} {off : Offset} {i : Instr}
    (hsize : off.toNat < r.size) (h : decodeStore r n v off = some i) : r.Admits n off := by
  cases r <;> simp only [decodeStore, Option.map_eq_some_iff] at h <;> obtain ⟨p, hp, -⟩ := h
  case mtime => exact formatT_admits hsize hp
  case mtimecmp => exact formatC_admits hp
  case mswi => exact formatI_admits hsize hp
  case sswi => exact formatI_admits hsize hp

/-- A plain access inside its region whose size or offset no row has is rejected by the name
`rejectPlain` gives it. -/
theorem decode_plain_rejected {d : Descriptor} (hplain : d.op.plain = true)
    (hsize : d.off.toNat < d.region.size) (h : ¬ d.region.Admits d.op.bytes d.off) :
    decode d = .error (rejectPlain d.op.bytes d.off) := by
  obtain ⟨r, off, op⟩ := d
  cases op with
  | load n =>
    have hnone : decodeLoad r n off = none :=
      Option.eq_none_iff_forall_ne_some.2 fun _ hi => h (decodeLoad_admits hsize hi)
    simp [decode, Nat.not_le.2 hsize, hnone, BusOp.bytes]
  | store n v =>
    have hnone : decodeStore r n v off = none :=
      Option.eq_none_iff_forall_ne_some.2 fun _ hi => h (decodeStore_admits hsize hi)
    simp [decode, Nat.not_le.2 hsize, hnone, BusOp.bytes]
  | special k n => cases hplain

/-- Settles O4: every row's offsets are multiples of its size. -/
theorem misalignedAccessIsNoOperation : Obligations.MisalignedAccessIsNoOperation := by
  intro d hplain hsize hoff
  rw [decode_plain_rejected hplain hsize fun h => hoff h.1, rejectPlain, if_pos hoff]

/-- Settles O5: no row has one of these sizes. -/
theorem wrongSizeAccessIsNoOperation : Obligations.WrongSizeAccessIsNoOperation := by
  intro d hplain hsize hoff hbytes
  have hrow : ¬ d.region.Admits d.op.bytes d.off := by
    rintro ⟨-, h4 | ⟨h8, hkind⟩⟩
    · omega
    · rcases hbytes with h | h | h | ⟨-, hswi | hswi⟩
      · omega
      · omega
      · omega
      · simp [hswi] at hkind
      · simp [hswi] at hkind
  rw [decode_plain_rejected hplain hsize hrow, rejectPlain, if_neg (not_not.2 hoff)]

/-- Settles O6: inside the region, an access of R67 has its own name. -/
theorem specialAccessIsNoOperation : Obligations.SpecialAccessIsNoOperation := by
  intro r off k n hsize
  rw [decode, if_neg (Nat.not_le.2 hsize)]

/-! ### The CLINT-compatible layout (R57, R58) -/

/-- Where a CLINT with a hart has its registers: MTIME at the top, the compare registers below it, the
MSWI at the base, and nothing else. -/
theorem locate_clint {B n : Nat} (hn : 0 < n) (a : Nat) :
    locate (Config.clint B n) a =
      if B + 0xBFF8 ≤ a ∧ a < B + 0xBFF8 + 8 then
        some (.mtime 0, BitVec.ofNat 16 (a - (B + 0xBFF8)))
      else if B + 0x4000 ≤ a ∧ a < B + 0x4000 + 0x7FF8 then
        some (.mtimecmp 0, BitVec.ofNat 16 (a - (B + 0x4000)))
      else if B ≤ a ∧ a < B + 0x4000 then some (.mswi 0, BitVec.ofNat 16 (a - B))
      else none := by
  have mtime_contains : Placed.contains ⟨.mtime 0, B + 0xBFF8, some 0⟩ a =
      decide (B + 0xBFF8 ≤ a ∧ a < B + 0xBFF8 + 8) := rfl
  have cmp_contains : Placed.contains ⟨.mtimecmp 0, B + 0x4000, none⟩ a =
      decide (B + 0x4000 ≤ a ∧ a < B + 0x4000 + 0x7FF8) := rfl
  have mswi_contains : Placed.contains ⟨.mswi 0, B, none⟩ a =
      decide (B ≤ a ∧ a < B + 0x4000) := rfl
  rw [locate, regions_clint, if_pos hn]
  simp only [List.cons_append, List.nil_append, List.find?_cons, List.find?_nil, mtime_contains,
    cmp_contains, mswi_contains]
  split_ifs with hmtime hcmp hmswi
  · rw [decide_eq_true hmtime]; rfl
  · rw [decide_eq_false hmtime, decide_eq_true hcmp]; rfl
  · rw [decide_eq_false hmtime, decide_eq_false hcmp, decide_eq_true hmswi]; rfl
  · rw [decide_eq_false hmtime, decide_eq_false hcmp, decide_eq_false hmswi]; rfl

/-- Settles O11: each address is compared with the three regions' bounds. -/
theorem clintLayout : Obligations.ClintLayout := by
  intro B n hn
  refine ⟨fun i hi => ?msip, fun i hi => ?compare, ?mtime, fun a ha => ?outside⟩
  case msip =>
    rw [locate_clint hn, if_neg (by omega), if_neg (by omega), if_pos (by omega),
      Nat.add_sub_cancel_left]
  case compare =>
    rw [locate_clint hn, if_neg (by omega), if_pos (by omega), Nat.add_sub_cancel_left]
  case mtime =>
    rw [locate_clint hn, if_pos (by omega), Nat.sub_self]
  case outside =>
    rw [locate_clint hn, if_neg (by omega), if_neg (by omega), if_neg (by omega)]

end Sys2Proof

namespace Sys2Proof.Machine

/-! ### One access of a bus master (R80, R183) -/

/-- When the next event is an access in no region, the step answers so. -/
theorem step_outside {s : State} {a : BusAccess} {rest : List Event}
    (ha : s.agenda = .bus a :: rest) (hl : locate s.cfg a.addr = none) :
    step s = .next { s with agenda := rest, master := a.master, resp := some .notAclint } := by
  simp only [step, ha, perform, performBus, hl, State.respond]

/-- When the next event is an access the platform lets through to a region, the step performs its
descriptor, with the event taken off the agenda and its master noted. -/
theorem step_admitted {s : State} {a : BusAccess} {rest : List Event} {r : Region} {off : Offset}
    (ha : s.agenda = .bus a :: rest) (hl : locate s.cfg a.addr = some (r, off))
    (hm : mayAccess s.cfg a.master r.device = true) :
    step s =
      performDescriptor ⟨r, off, a.op⟩ { s with agenda := rest, master := a.master } := by
  simp only [step, ha, perform, performBus, hl, hm, if_true]

theorem performDescriptor_ok {d : Descriptor} {i : Instr} (hd : decode d = .ok i) (s : State) :
    performDescriptor d s = exec i s := by simp only [performDescriptor, hd]

theorem performDescriptor_error {d : Descriptor} {why : BadReason} (hd : decode d = .error why)
    (s : State) : performDescriptor d s = .next (badAccess why d s) := by
  simp only [performDescriptor, hd]

/-- Settles O37: the access is admitted and its descriptor decodes to the operation. -/
theorem stepRunsDecodedInstruction : Obligations.StepRunsDecodedInstruction := by
  intro s a rest r off i ha hl hm hd
  rw [step_admitted ha hl hm, performDescriptor_ok hd]

/-- Settles O34: the access is admitted and its descriptor decodes to no operation. -/
theorem undecodedAccessHasBadOutcome : Obligations.UndecodedAccessHasBadOutcome := by
  intro s a rest r off why ha hl hm hd
  refine ⟨_, ?_, badAccess_outcome why ⟨r, off, a.op⟩ _⟩
  rw [step_admitted ha hl hm, performDescriptor_error hd]

/-- Settles O36: no region holds the address. -/
theorem accessOutsideRegionsChangesNoDevice : Obligations.AccessOutsideRegionsChangesNoDevice :=
  fun _ _ _ => step_outside

/-! ### Each guarded operation, admitted or forbidden (R62, R65) -/

variable {s : State}

theorem laneForbidden_off {cfg : Config} {l : Lane} (h : cfg.halfAccess64 = false)
    (hl : l ≠ .full) : laneForbidden cfg l = some .halfAccessOff := by
  cases l with
  | full => exact absurd rfl hl
  | low => simp [laneForbidden, h]
  | high => simp [laneForbidden, h]

/-- A forbidden operation has R64's outcome. -/
theorem guarded_badOutcome {f : Option BadReason} {why : BadReason} (hf : f = some why) (i : Instr)
    (s e : State) : ∃ u, guarded f i s e = .next u ∧ BadOutcome why (encode i) s u := by
  subst hf
  exact ⟨_, guarded_some .., badAccess_outcome ..⟩

/-- The two operations on MTIME of an MTIMER, each forbidden for the reason its part is. -/
theorem exec_mtime_forbidden {t : Nat} {d : Mtimer} {l : Lane} {w : WriteData} {why : BadReason}
    (hd : s.cfg.mtimers[t]? = some d) (hl : laneForbidden s.cfg l = some why)
    (hw : laneForbidden s.cfg w.lane = some why) :
    ∀ op ∈ [Instr.mtimeR t l, .mtimeW t w],
      ∃ u, exec op s = .next u ∧ BadOutcome why (encode op) s u := by
  simp only [List.forall_mem_cons, exec, execMtimeR_eq hd, execMtimeW_eq hd]
  exact ⟨guarded_badOutcome hl _ s _, guarded_badOutcome hw _ s _, List.forall_mem_nil _⟩

/-- The two operations on a compare register, each forbidden for its index or its part. -/
theorem exec_mtimecmp_forbidden {t : Nat} {d : Mtimer} {i : HartIndex} {l : Lane} {w : WriteData}
    {why : BadReason} (hd : s.cfg.mtimers[t]? = some d)
    (hl : (indexForbidden d.harts i).or (laneForbidden s.cfg l) = some why)
    (hw : (indexForbidden d.harts i).or (laneForbidden s.cfg w.lane) = some why) :
    ∀ op ∈ [Instr.mtimecmpR t i l, .mtimecmpW t i w],
      ∃ u, exec op s = .next u ∧ BadOutcome why (encode op) s u := by
  simp only [List.forall_mem_cons, exec, execMtimecmpR_eq hd, execMtimecmpW_eq hd]
  exact ⟨guarded_badOutcome hl _ s _, guarded_badOutcome hw _ s _, List.forall_mem_nil _⟩

/-- Settles O25: the part is forbidden, and for MTIMECMP the index is not. -/
theorem halfAccessesAreUndefinedByDefault : Obligations.HalfAccessesAreUndefinedByDefault := by
  intro s t d l w hhalf hl hw hd
  have hread := laneForbidden_off hhalf hl
  have hwrite := laneForbidden_off hhalf hw
  refine ⟨exec_mtime_forbidden hd hread hwrite, fun i hi => ?_⟩
  exact exec_mtimecmp_forbidden hd (by rw [indexForbidden_served hi, Option.none_or, hread])
    (by rw [indexForbidden_served hi, Option.none_or, hwrite])

/-- Settles O33: the index is checked first, and is forbidden. -/
theorem unconnectedSlotsHaveBadOutcome : Obligations.UnconnectedSlotsHaveBadOutcome := by
  refine ⟨fun s t d i l w hd hi => ?_, fun s m d i v hd hi => ?_, fun s m d i v hd hi => ?_⟩
  · exact exec_mtimecmp_forbidden hd (by rw [indexForbidden_unserved hi, Option.some_or])
      (by rw [indexForbidden_unserved hi, Option.some_or])
  · have hf := indexForbidden_unserved hi
    simp only [List.forall_mem_cons, exec, execMsipR_eq hd, execMsipW_eq hd]
    exact ⟨guarded_badOutcome hf _ s _, guarded_badOutcome hf _ s _, List.forall_mem_nil _⟩
  · have hf := indexForbidden_unserved hi
    simp only [List.forall_mem_cons, exec, execSetssipR_eq hd, execSetssipW_eq hd]
    exact ⟨guarded_badOutcome hf _ s _, guarded_badOutcome hf _ s _, List.forall_mem_nil _⟩

/-! ### Half accesses where they are admitted (R62) -/

section

variable {t : Nat} {d : Mtimer} {i : HartIndex} (hd : s.cfg.mtimers[t]? = some d)

include hd

theorem exec_mtimeR_admitted {l : Lane} (hl : laneForbidden s.cfg l = none) :
    exec (.mtimeR t l) s = .next (s.respond (readLane l (s.getMtime d.mtimeCell))) := by
  rw [exec, execMtimeR_eq hd, hl, guarded_none]

theorem exec_mtimeW_admitted {w : WriteData} (hw : laneForbidden s.cfg w.lane = none) :
    exec (.mtimeW t w) s = .next
      ((s.setMtime d.mtimeCell (writeLane (s.getMtime d.mtimeCell) w)).respond .ack) := by
  rw [exec, execMtimeW_eq hd, hw, guarded_none]

theorem exec_mtimecmpR_admitted {l : Lane} (hi : i.toNat < hartCount d.harts)
    (hl : laneForbidden s.cfg l = none) :
    exec (.mtimecmpR t i l) s = .next (readCompare t i l s) := by
  rw [exec, execMtimecmpR_eq hd, indexForbidden_served hi, hl, Option.none_or, guarded_none]

theorem exec_mtimecmpW_admitted {w : WriteData} (hi : i.toNat < hartCount d.harts)
    (hw : laneForbidden s.cfg w.lane = none) :
    exec (.mtimecmpW t i w) s = .next
      ((s.setCompare t i (writeCompare (s.getCompare t i) w)).respond .ack) := by
  rw [exec, execMtimecmpW_eq hd, indexForbidden_served hi, hw, Option.none_or, guarded_none]

/-- A write to MTIME that is admitted fills its part of the device's cell and nothing else. -/
theorem exec_mtimeW_frame {w : WriteData} (hw : laneForbidden s.cfg w.lane = none) :
    ∃ u, exec (.mtimeW t w) s = .next u ∧ u = { s with mtime := u.mtime, resp := some .ack } ∧
      (∀ c, c ≠ d.mtimeCell → u.getMtime c = s.getMtime c) ∧
      u.getMtime d.mtimeCell = writeLane (s.getMtime d.mtimeCell) w :=
  ⟨_, exec_mtimeW_admitted hd hw, rfl, fun _ hc => s.getMtime_setMtime_other _ hc,
    s.getMtime_setMtime_same _ _⟩

/-- A write to a compare register that is admitted fills its part and nothing else. -/
theorem exec_mtimecmpW_frame {w : WriteData} (hi : i.toNat < hartCount d.harts)
    (hw : laneForbidden s.cfg w.lane = none) :
    ∃ u, exec (.mtimecmpW t i w) s = .next u ∧
      u = { s with mtimecmp := u.mtimecmp, resp := some .ack } ∧
      u.getCompare t i = writeCompare (s.getCompare t i) w ∧
      (∀ t' i', ¬ (t' = t ∧ i' = i) → u.getCompare t' i' = s.getCompare t' i') :=
  ⟨_, exec_mtimecmpW_admitted hd hi hw, rfl, s.getCompare_setCompare_same t i _,
    fun _ _ hreg => s.getCompare_setCompare_other _ hreg⟩

end

theorem readCompare_known {i : HartIndex} {t : Nat} {v : Word64} (l : Lane)
    (h : (s.getCompare t i).value = some v) : readCompare t i l s = s.respond (readLane l v) := by
  simp only [readCompare, h]

theorem readCompare_unknown {i : HartIndex} {t : Nat} (l : Lane)
    (h : (s.getCompare t i).value = none) :
    readCompare t i l s = (s.drawn 1).respond (drawLane l s.freeNat) := by
  simp only [readCompare, h]

/-- Settles O22: each half is admitted; a compare register answers by whether it has a value. -/
theorem halfReadsAnswerHalves : Obligations.HalfReadsAnswerHalves := by
  intro s t d hhalf hd
  have hlane := fun l => laneForbidden_half l hhalf
  refine ⟨exec_mtimeR_admitted hd (hlane .low), exec_mtimeR_admitted hd (hlane .high),
    fun i hi => ⟨fun v hv => ?known, fun hv l hl => ?unknown⟩⟩
  case known =>
    constructor
    · rw [exec_mtimecmpR_admitted hd hi (hlane .low), readCompare_known _ hv]
      rfl
    · rw [exec_mtimecmpR_admitted hd hi (hlane .high), readCompare_known _ hv]
      rfl
  case unknown =>
    rw [exec_mtimecmpR_admitted hd hi (hlane l), readCompare_unknown _ hv]
    cases l with
    | full => exact absurd rfl hl
    | low => rfl
    | high => rfl

/-- Settles O23: each half is admitted, and `writeLane` keeps the other half. -/
theorem halfWritesOfMtime : Obligations.HalfWritesOfMtime := by
  intro s t d v hhalf hd
  exact ⟨exec_mtimeW_frame hd (w := .low v) (laneForbidden_half _ hhalf),
    exec_mtimeW_frame hd (w := .high v) (laneForbidden_half _ hhalf)⟩

/-- Settles O24: each half write is admitted, also after the other, and keeps the other half. -/
theorem halfWritesOfMtimecmp : Obligations.HalfWritesOfMtimecmp := by
  intro s t d i lo hi hhalf hd hserved
  obtain ⟨u, hu, hframe, hreg, hother⟩ :=
    exec_mtimecmpW_frame hd hserved (w := .low lo) (laneForbidden_half _ hhalf)
  have ucfg : u.cfg = s.cfg := exec_cfg hu
  obtain ⟨u', hu', -, hreg', -⟩ :=
    exec_mtimecmpW_frame (ucfg ▸ hd) hserved (w := .high hi) (laneForbidden_half _ (ucfg ▸ hhalf))
  obtain ⟨v, hv, vframe, vreg, vother⟩ :=
    exec_mtimecmpW_frame hd hserved (w := .high hi) (laneForbidden_half _ hhalf)
  have vcfg : v.cfg = s.cfg := exec_cfg hv
  obtain ⟨v', hv', -, vreg', -⟩ :=
    exec_mtimecmpW_frame (vcfg ▸ hd) hserved (w := .low lo) (laneForbidden_half _ (vcfg ▸ hhalf))
  refine ⟨u, v, u', v', hu, hframe, hreg, hother, hu', ?_, hv, vframe, vreg, vother, hv', ?_⟩
  · rw [hreg', hreg]
    exact Compare.value_halves lo hi
  · rw [vreg', vreg]
    exact Compare.value_halves lo hi

end Sys2Proof.Machine

namespace Sys2Proof.Machine

/-! ### Reads (R68) -/

theorem State.SameDevices.getMtime {s u : State} (h : s.SameDevices u) (c : Nat) :
    u.getMtime c = s.getMtime c := by
  obtain ⟨-, hmtime, -, -, -, -⟩ := h
  rw [State.getMtime, hmtime, State.getMtime]

theorem State.SameDevices.mtipWire {s u : State} (h : s.SameDevices u) (t : Nat) (i : HartIndex) :
    u.mtipWire t i = s.mtipWire t i := by
  have hcfg : u.cfg = s.cfg := h.1
  simp only [State.mtipWire, hcfg, h.getCompare, h.getMtime]

theorem State.SameDevices.msipWire {s u : State} (h : s.SameDevices u) (m : Nat) (i : HartIndex) :
    u.msipWire m i = s.msipWire m i := h.getMsip m i

/-- A read changes no device: none of the effects of the four writes is a read's. -/
theorem exec_read_sameDevices {s u : State} {i : Instr} (hr : i.isRead = true)
    (h : exec i s = .next u) : s.SameDevices u := by
  cases exec_effect h with
  | nothing _ _ hs => exact hs
  | mtime => cases hr
  | mtimecmp => cases hr
  | msip => cases hr
  | edge => cases hr

/-- A guarded operation whose effect keeps the agenda keeps it. -/
theorem guarded_agenda {f : Option BadReason} {i : Instr} {s e u : State}
    (h : guarded f i s e = .next u) (he : e.agenda = s.agenda) : u.agenda = s.agenda := by
  rcases guarded_next h with ⟨-, rfl⟩ | ⟨why, -, rfl⟩
  · exact he
  · exact badAccess_agenda ..

theorem readCompare_agenda (t : Nat) (i : HartIndex) (l : Lane) (s : State) :
    (readCompare t i l s).agenda = s.agenda := by
  unfold readCompare
  split <;> rfl

/-- A read leaves the pending events as they are. -/
theorem exec_read_agenda {i : Instr} {s u : State} (hr : i.isRead = true)
    (h : exec i s = .next u) : u.agenda = s.agenda := by
  cases i with
  | mtimeR t l =>
    rw [exec, execMtimeR] at h
    split at h
    · cases h
    · exact guarded_agenda h rfl
  | mtimecmpR t i l =>
    rw [exec, execMtimecmpR] at h
    split at h
    · cases h
    · exact guarded_agenda h (readCompare_agenda ..)
  | msipR m i =>
    rw [exec, execMsipR] at h
    split at h
    · cases h
    · exact guarded_agenda h rfl
  | setssipR m i =>
    rw [exec, execSetssipR] at h
    split at h
    · cases h
    · exact guarded_agenda h rfl
  | _ => cases hr

/-- Settles O44: the operation answers a next state, and a read's keeps devices and pending events. -/
theorem readsHaveNoSideEffect : Obligations.ReadsHaveNoSideEffect := by
  intro s i hr hregion
  obtain ⟨u, hu⟩ := exec_total hregion
  have hs := exec_read_sameDevices hr hu
  exact ⟨u, hu, hs, exec_read_agenda hr hu, hs.mtipWire, hs.msipWire⟩

end Sys2Proof.Machine

namespace Sys2Proof

/-! ### Decode inverts encode (30_encoding.md R80 to R86) -/

/-- The family `EncodeFits`, for every operation at once. -/
theorem encode_fits (i : Instr) : Laws.EncodeFits.Statement i := by
  cases i with
  | mtimeR t l => exact Laws.EncodeFits.mtimeR t l
  | mtimeW t w => exact Laws.EncodeFits.mtimeW t w
  | mtimecmpR t i l => exact Laws.EncodeFits.mtimecmpR t i l
  | mtimecmpW t i w => exact Laws.EncodeFits.mtimecmpW t i w
  | mswiReserved m a => exact Laws.EncodeFits.mswiReserved m a
  | msipR m i => exact Laws.EncodeFits.msipR m i
  | msipW m i v => exact Laws.EncodeFits.msipW m i v
  | sswiReserved d a => exact Laws.EncodeFits.sswiReserved d a
  | setssipR d i => exact Laws.EncodeFits.setssipR d i
  | setssipW d i v => exact Laws.EncodeFits.setssipW d i v

/-- No operation's access is of 0 bytes. -/
theorem encode_bytes_pos (i : Instr) : 0 < (encode i).op.bytes := by
  have lane_bytes_pos (l : Lane) : 0 < l.bytes := by cases l <;> decide
  have reserved_bytes_pos (a : ReservedAccess) : 0 < a.op.bytes := by
    cases a <;> exact Nat.succ_pos 3
  cases i with
  | mtimeR t l => exact lane_bytes_pos l
  | mtimeW t w => exact lane_bytes_pos w.lane
  | mtimecmpR t i l => exact lane_bytes_pos l
  | mtimecmpW t i w => exact lane_bytes_pos w.lane
  | mswiReserved m a => exact reserved_bytes_pos a
  | sswiReserved d a => exact reserved_bytes_pos a
  | _ => exact Nat.succ_pos 3

/-- An encoding's offset lies inside its region. -/
theorem encode_off_lt {i : Instr} (h : i.encodable = true) :
    (encode i).off.toNat < (encode i).region.size := by
  obtain ⟨-, hsize, -⟩ := encode_fits i h
  have := encode_bytes_pos i
  omega

theorem formatT_offsetT (l : Lane) : formatT l.bytes (offsetT l) = some l := by
  cases l <;> decide

theorem formatC_offsetC (i : HartIndex) (l : Lane) :
    formatC l.bytes (offsetC i l) = some (i, l) := by
  rw [formatC, if_pos (offsetC_mask i l), offsetC_low, laneAt_lane, offsetC_index, Option.map_some]

theorem formatI_reservedWord : formatI 4 0x3FFC#16 = some .reservedWord := by decide

/-- An index up to 4094 is not that of the RESERVED word. -/
theorem formatI_offsetI {i : HartIndex} (h : indexWf i = true) :
    formatI 4 (offsetI i) = some (.register i) := by
  have hne : offsetI i ≠ 0x3FFC#16 := by
    intro he
    have ht : 4 * i.toNat = 0x3FFC := by rw [← offsetI_toNat, he]; rfl
    have hi : i.toNat ≤ 4094 := by simpa [indexWf] using h
    omega
  rw [formatI, if_neg (not_not.2 rfl), if_neg hne, if_pos (offsetI_mask i), offsetI_index]

/-- The operation of a plain access at an offset of a region, by its direction's rows alone. -/
def decodePlain (r : Region) (off : Offset) : BusOp → Option Instr
  | .load n => decodeLoad r n off
  | .store n v => decodeStore r n v off
  | .special _ _ => none

/-- A descriptor decodes to an operation exactly where its direction's rows give it, inside the
region. -/
theorem decode_ok_iff {r : Region} {off : Offset} {op : BusOp} {i : Instr} :
    decode ⟨r, off, op⟩ = .ok i ↔ off.toNat < r.size ∧ decodePlain r off op = some i := by
  by_cases hs : off.toNat < r.size
  · have hin := Nat.not_le.2 hs
    cases op with
    | load n => cases h : decodeLoad r n off <;> simp [decode, decodePlain, hs, hin, h]
    | store n v => cases h : decodeStore r n v off <;> simp [decode, decodePlain, hs, hin, h]
    | special k n => simp [decode, decodePlain, hin]
  · simp [decode, hs, Nat.not_lt.1 hs]

/-- The rows of the operation's direction take its encoding's offset, and take out what was put in. -/
theorem decodePlain_encode {i : Instr} (h : i.encodable = true) :
    decodePlain (encode i).region (encode i).off (encode i).op = some i := by
  cases i with
  | mtimeR t l => simp [encode, decodePlain, decodeLoad, formatT_offsetT]
  | mtimeW t w => simp [encode, decodePlain, decodeStore, formatT_offsetT, writeDataAt_value]
  | mtimecmpR t i l => simp [encode, decodePlain, decodeLoad, formatC_offsetC]
  | mtimecmpW t i w =>
    simp [encode, decodePlain, decodeStore, formatC_offsetC, writeDataAt_value]
  | mswiReserved m a =>
    cases a <;>
      simp [encode, ReservedAccess.op, decodePlain, decodeLoad, decodeStore, formatI_reservedWord]
  | msipR m i => simp [encode, decodePlain, decodeLoad, formatI_offsetI h]
  | msipW m i v => simp [encode, decodePlain, decodeStore, formatI_offsetI h]
  | sswiReserved d a =>
    cases a <;>
      simp [encode, ReservedAccess.op, decodePlain, decodeLoad, decodeStore, formatI_reservedWord]
  | setssipR d i => simp [encode, decodePlain, decodeLoad, formatI_offsetI h]
  | setssipW d i v => simp [encode, decodePlain, decodeStore, formatI_offsetI h]

/-- Settles O1: the encoding lies inside its region, and the rows of its direction give the operation
back. -/
theorem encodedInstructionDecodes : Obligations.EncodedInstructionDecodes :=
  fun _ h => decode_ok_iff.2 ⟨encode_off_lt h, decodePlain_encode h⟩

/-- Settles O7: each word is the encoding of its operation. -/
theorem sourceTableOffsetsDecode : Obligations.SourceTableOffsetsDecode :=
  ⟨encodedInstructionDecodes (.mtimeR 0 .full) rfl,
    encodedInstructionDecodes (.mtimecmpR 0 1 .full) rfl,
    encodedInstructionDecodes (.mtimecmpW 0 4094 (.full 5#64)) rfl,
    encodedInstructionDecodes (.msipW 0 1 1#32) rfl,
    encodedInstructionDecodes (.msipR 0 4094) rfl,
    encodedInstructionDecodes (.mswiReserved 0 .read) rfl,
    encodedInstructionDecodes (.setssipW 0 4094 3#32) rfl,
    encodedInstructionDecodes (.sswiReserved 0 (.write 1#32)) rfl⟩

/-- An offset inside an MTIMECMP region that names a part of a compare register has an index up to
4094. -/
theorem indexWf_of_offsetC_lt {i : HartIndex} {l : Lane} (h : (offsetC i l).toNat < 0x7FF8) :
    indexWf i = true := by
  rw [offsetC_toNat] at h
  exact decide_eq_true (by omega)

/-- The offset of a word format I selects. -/
def Slot.offset : Slot → Offset
  | .reservedWord => 0x3FFC#16
  | .register i => offsetI i

/-- The word has an encoding: its hart index, if it has one, is at most 4094. -/
def Slot.encodable : Slot → Bool
  | .reservedWord => true
  | .register i => indexWf i

/-- Inside its region, format I selects a word by its size and offset. -/
theorem formatI_slot {n : Nat} {off : Offset} {slot : Slot} (hsize : off.toNat < 0x4000)
    (h : formatI n off = some slot) : n = 4 ∧ off = slot.offset ∧ slot.encodable = true := by
  cases slot with
  | reservedWord =>
    obtain ⟨hn, hoff⟩ := formatI_some hsize h
    exact ⟨hn, hoff, rfl⟩
  | register i => exact formatI_some hsize h

/-- Store data that fits a 4-byte access is its 32-bit word. -/
theorem word32_toNat {v : Nat} (h : BusOp.wf (.store 4 v) = true) :
    (BitVec.ofNat 32 v).toNat = v :=
  Nat.mod_eq_of_lt (of_decide_eq_true h)

/-- What a direction's rows give inside a region, for store data that fits, is the operation whose
encoding the access is. -/
theorem encode_of_decodePlain {r : Region} {off : Offset} {op : BusOp} {i : Instr}
    (hwf : op.wf = true) (hsize : off.toNat < r.size) (h : decodePlain r off op = some i) :
    i.encodable = true ∧ encode i = ⟨r, off, op⟩ := by
  cases op with
  | load n =>
    cases r <;> simp only [decodePlain, decodeLoad, Option.map_eq_some_iff] at h <;>
      obtain ⟨p, hp, rfl⟩ := h
    case mtime =>
      obtain ⟨rfl, rfl⟩ := formatT_some hsize hp
      exact ⟨rfl, rfl⟩
    case mtimecmp =>
      obtain ⟨rfl, rfl⟩ := formatC_some hp
      exact ⟨indexWf_of_offsetC_lt hsize, rfl⟩
    case mswi =>
      obtain ⟨rfl, rfl, hslot⟩ := formatI_slot hsize hp
      cases p <;> exact ⟨hslot, rfl⟩
    case sswi =>
      obtain ⟨rfl, rfl, hslot⟩ := formatI_slot hsize hp
      cases p <;> exact ⟨hslot, rfl⟩
  | store n v =>
    cases r <;> simp only [decodePlain, decodeStore, Option.map_eq_some_iff] at h <;>
      obtain ⟨p, hp, rfl⟩ := h
    case mtime =>
      obtain ⟨rfl, rfl⟩ := formatT_some hsize hp
      obtain ⟨hlane, hvalue⟩ := writeDataAt_inv p (of_decide_eq_true hwf)
      exact ⟨rfl, by rw [encode, hlane, hvalue]⟩
    case mtimecmp =>
      obtain ⟨rfl, rfl⟩ := formatC_some hp
      obtain ⟨hlane, hvalue⟩ := writeDataAt_inv p.2 (of_decide_eq_true hwf)
      exact ⟨indexWf_of_offsetC_lt hsize, by rw [encode, hlane, hvalue]⟩
    case mswi =>
      obtain ⟨rfl, rfl, hslot⟩ := formatI_slot hsize hp
      have hvalue := word32_toNat hwf
      cases p <;> exact ⟨hslot, by simp only [encode, ReservedAccess.op, hvalue, Slot.offset]⟩
    case sswi =>
      obtain ⟨rfl, rfl, hslot⟩ := formatI_slot hsize hp
      have hvalue := word32_toNat hwf
      cases p <;> exact ⟨hslot, by simp only [encode, ReservedAccess.op, hvalue, Slot.offset]⟩
  | special k n => cases h

/-- Settles O2: the descriptor decodes by its direction's rows, inside its region. -/
theorem decodedDescriptorIsItsEncoding : Obligations.DecodedDescriptorIsItsEncoding := by
  intro d i hwf h
  obtain ⟨hsize, hrow⟩ := decode_ok_iff.1 h
  exact encode_of_decodePlain hwf hsize hrow

/-! ### The operation table (30_encoding.md R86) -/

/-- The row is of the region kind and takes the direction. -/
def OpRow.serves (r : OpRow) (k : RegionKind) (dir : Dir) : Bool :=
  decide (r.kind = k) && (r.dir == none || r.dir == some dir)

/-- The row is of the size and takes the offset. -/
def OpRow.fits (r : OpRow) (n : Nat) (off : Offset) : Bool := decide (r.n = n) && r.takes off

/-- The first row that selects an access is the first that fits it among those of its region kind and
direction. -/
theorem firstRow_eq (k : RegionKind) (dir : Dir) (n : Nat) (off : Offset) :
    opTable.find? (fun r => r.selects k dir n off) =
      (opTable.filter (fun r => r.serves k dir)).find? (fun r => r.fits n off) := by
  rw [List.find?_filter]
  congr 1
  funext r
  rw [Bool.decide_and, Bool.decide_eq_true, Bool.decide_eq_true, OpRow.selects, OpRow.serves,
    OpRow.fits, Bool.and_assoc]

/-- What R86 says of the first row that selects an access and of the operation decoded: with a row, an
operation of its mnemonic; with none, no operation, unless the access is a half (R62). -/
def RowAgrees (row : Option OpRow) (i : Option Instr) (half : Prop) : Prop :=
  match row with
  | some r => ∃ j, i = some j ∧ j.mnemonic = r.mnemonic
  | none => i = none ∨ half

/-- A single row agrees with a format that takes every access the row fits and, besides those, only
halves. -/
theorem rowAgrees_single {α : Type} {row : OpRow} {fmt : Option α} {f : α → Instr} {n : Nat}
    {off : Offset} {half : Prop} (hname : ∀ p, (f p).mnemonic = row.mnemonic)
    (htaken : row.fits n off = true → ∃ p, fmt = some p)
    (hfits : ∀ p, fmt = some p → row.fits n off = true ∨ half) :
    RowAgrees ([row].find? fun r => r.fits n off) (fmt.map f) half := by
  cases hrow : row.fits n off with
  | true =>
    obtain ⟨p, hp⟩ := htaken hrow
    simpa [RowAgrees, hrow, hp] using hname p
  | false =>
    cases hfmt : fmt with
    | none => simp [RowAgrees, hrow]
    | some p => simpa [RowAgrees, hrow] using hfits p hfmt

/-- The mask of all 16 bits takes every bit. -/
theorem and_fullMask (off : Offset) : off &&& 0xFFFF#16 = off := by
  rw [show 0xFFFF#16 = BitVec.allOnes 16 by decide, BitVec.and_allOnes]

/-- A row whose mask has every bit takes one offset. -/
theorem OpRow.fits_word {m : String} {k : RegionKind} {dir : Option Dir} {n n' : Nat}
    {off p : Offset} :
    (⟨m, k, dir, n, 0xFFFF#16, p⟩ : OpRow).fits n' off = true ↔ n = n' ∧ off = p := by
  simp [OpRow.fits, OpRow.takes, and_fullMask]

theorem formatT_rowAgrees {m : String} {dir : Dir} {f : Lane → Instr} {n : Nat} {off : Offset}
    {half : Prop} (hname : ∀ l, (f l).mnemonic = m) (hsize : off.toNat < 8)
    (hhalf : n = 4 → half) :
    RowAgrees ([⟨m, .mtime, some dir, 8, 0xFFFF#16, 0#16⟩].find? fun r : OpRow => r.fits n off)
      ((formatT n off).map f) half := by
  refine rowAgrees_single hname (fun h => ⟨.full, ?_⟩) fun l hl => ?_
  · obtain ⟨rfl, rfl⟩ := OpRow.fits_word.1 h
    decide
  · obtain ⟨rfl, rfl⟩ := formatT_some hsize hl
    cases l with
    | full => exact .inl (OpRow.fits_word.2 ⟨rfl, rfl⟩)
    | low => exact .inr (hhalf rfl)
    | high => exact .inr (hhalf rfl)

/-- The mask of a whole compare register is that of format C and of the three low bits. -/
theorem maskC_full {off : Offset} (h : off &&& 0x8007#16 = 0#16) :
    off &&& 0x8000#16 = 0#16 ∧ off.extractLsb' 0 3 = 0#3 := by
  constructor
  · calc off &&& 0x8000#16 = off &&& 0x8007#16 &&& 0x8000#16 := by rw [BitVec.and_assoc]; rfl
      _ = 0#16 := by rw [h]; rfl
  · have hlow : (off &&& 0x8007#16).extractLsb' 0 3 = 0#3 := by rw [h]; rfl
    rwa [BitVec.extractLsb'_and, show (0x8007#16).extractLsb' 0 3 = BitVec.allOnes 3 from rfl,
      BitVec.and_allOnes] at hlow

theorem formatC_rowAgrees {m : String} {dir : Dir} {f : HartIndex × Lane → Instr} {n : Nat}
    {off : Offset} {half : Prop} (hname : ∀ p, (f p).mnemonic = m) (hhalf : n = 4 → half) :
    RowAgrees ([⟨m, .mtimecmp, some dir, 8, 0x8007#16, 0#16⟩].find? fun r : OpRow => r.fits n off)
      ((formatC n off).map f) half := by
  refine rowAgrees_single hname (fun h => ?_) fun ⟨i, l⟩ hl => ?_
  · simp only [OpRow.fits, OpRow.takes, Bool.and_eq_true, decide_eq_true_eq] at h
    obtain ⟨rfl, hoff⟩ := h
    obtain ⟨hbit, hlow⟩ := maskC_full hoff
    exact ⟨(off.extractLsb' 3 12, .full), by rw [formatC, if_pos hbit, hlow]; rfl⟩
  · obtain ⟨rfl, rfl⟩ := formatC_some hl
    cases l with
    | full =>
      have hmask : (0x8007#16 : Offset) = 1#1 ++ 0#12 ++ 7#3 := by decide
      refine .inl ?_
      rw [OpRow.fits, OpRow.takes, offsetC, hmask, BitVec.and_append, BitVec.and_append]
      simp [Lane.bytes, Lane.lowBits]
    | low => exact .inr (hhalf rfl)
    | high => exact .inr (hhalf rfl)

/-- Format I is the table's two rows of its region, tried in their order. -/
theorem formatI_rowAgrees {k : RegionKind} {m m' : String} {dir dir' : Option Dir}
    {f : Slot → Instr} {n : Nat} {off : Offset} {half : Prop}
    (hreserved : (f .reservedWord).mnemonic = m)
    (hregister : ∀ i, (f (.register i)).mnemonic = m') :
    RowAgrees ([⟨m, k, dir, 4, 0xFFFF#16, 0x3FFC#16⟩, ⟨m', k, dir', 4, 0xC003#16, 0#16⟩].find?
      fun r : OpRow => r.fits n off) ((formatI n off).map f) half := by
  by_cases hn : n = 4
  · subst hn
    by_cases hres : off = 0x3FFC#16
    · rw [List.find?_cons_of_pos (p := fun r : OpRow => r.fits 4 off)
        (OpRow.fits_word.2 ⟨rfl, hres⟩), hres, formatI_reservedWord]
      exact ⟨_, rfl, hreserved⟩
    · by_cases hmask : off &&& 0xC003#16 = 0#16
      · simp [RowAgrees, OpRow.fits, OpRow.takes, formatI, and_fullMask, hres, hmask, hregister]
      · simp [RowAgrees, OpRow.fits, OpRow.takes, formatI, and_fullMask, hres, hmask]
  · simp [RowAgrees, OpRow.fits, Ne.symm hn, formatI, hn]

/-- A plain access inside its region is decoded by the rows of its direction as R86 says. -/
theorem decodePlain_rowAgrees {r : Region} {off : Offset} {op : BusOp} (hplain : op.plain = true)
    (hsize : off.toNat < r.size) :
    RowAgrees (opTable.find? fun row => row.selects r.kind op.dir op.bytes off)
      (decodePlain r off op) (op.bytes = 4 ∧ (r.kind = .mtime ∨ r.kind = .mtimecmp)) := by
  rw [firstRow_eq]
  cases op with
  | load n =>
    cases r with
    | mtime t => exact formatT_rowAgrees (fun _ => rfl) hsize fun h => ⟨h, .inl rfl⟩
    | mtimecmp t => exact formatC_rowAgrees (fun _ => rfl) fun h => ⟨h, .inr rfl⟩
    | mswi m => exact formatI_rowAgrees rfl fun _ => rfl
    | sswi d => exact formatI_rowAgrees rfl fun _ => rfl
  | store n v =>
    cases r with
    | mtime t => exact formatT_rowAgrees (fun _ => rfl) hsize fun h => ⟨h, .inl rfl⟩
    | mtimecmp t => exact formatC_rowAgrees (fun _ => rfl) fun h => ⟨h, .inr rfl⟩
    | mswi m => exact formatI_rowAgrees rfl fun _ => rfl
    | sswi d => exact formatI_rowAgrees rfl fun _ => rfl
  | special k n => cases hplain

/-- Settles O3: the rows of the direction agree with the table, and an access to which they give no
operation is an error. -/
theorem decodeAgreesWithOperationTable : Obligations.DecodeAgreesWithOperationTable := by
  intro ⟨r, off, op⟩ hplain hsize
  have hagrees := decodePlain_rowAgrees hplain hsize
  refine ⟨fun row hrow => ?_, fun hrow => ?_⟩
  · rw [hrow] at hagrees
    obtain ⟨i, hi, hname⟩ := hagrees
    exact ⟨i, decode_ok_iff.2 ⟨hsize, hi⟩, hname⟩
  · rw [hrow] at hagrees
    refine hagrees.imp_left fun hnone => ?_
    cases hd : decode ⟨r, off, op⟩ with
    | error why => exact ⟨why, rfl⟩
    | ok i => simp [(decode_ok_iff.1 hd).2] at hnone

end Sys2Proof

namespace Sys2Proof

/-! ### Locating an address (30_encoding.md R80, 00_scope.md R10(d)) -/

/-- A region of the configuration stands at its base. -/
theorem regionBase_of_mem {cfg : Config} {p : Placed} (hp : p ∈ regions cfg) :
    regionBase cfg p.region = some p.base := by
  rcases mem_regions.1 hp with
    ⟨t, d, hd, rfl⟩ | ⟨t, d, hd, -, rfl⟩ | ⟨m, d, hd, rfl⟩ | ⟨m, d, hd, rfl⟩
  · simp [placedMtime, regionBase, hd]
  · simp [placedMtimecmp, regionBase, hd]
  · simp [placedMswi, regionBase, hd]
  · simp [placedSswi, regionBase, hd]

/-- A region the configuration has is one of its regions. -/
theorem exists_placed {cfg : Config} {r : Region} (hr : cfg.hasRegion r = true) :
    ∃ p ∈ regions cfg, p.region = r := by
  cases r with
  | mtime t =>
    have hd := List.getElem?_eq_getElem (of_decide_eq_true hr)
    exact ⟨_, mem_regions.2 (.inl ⟨t, _, hd, rfl⟩), rfl⟩
  | mtimecmp t =>
    cases hd : cfg.mtimers[t]? with
    | none => simp [Config.hasRegion, hd] at hr
    | some d =>
      have hharts : 0 < hartCount d.harts := by simpa [Config.hasRegion, hd] using hr
      exact ⟨_, mem_regions.2 (.inr (.inl ⟨t, d, hd, hharts, rfl⟩)), rfl⟩
  | mswi m =>
    have hd := List.getElem?_eq_getElem (of_decide_eq_true hr)
    exact ⟨_, mem_regions.2 (.inr (.inr (.inl ⟨m, _, hd, rfl⟩))), rfl⟩
  | sswi s =>
    have hd := List.getElem?_eq_getElem (of_decide_eq_true hr)
    exact ⟨_, mem_regions.2 (.inr (.inr (.inr ⟨s, _, hd, rfl⟩))), rfl⟩

theorem Placed.contains_iff {p : Placed} {a : Nat} :
    p.contains a = true ↔ p.base ≤ a ∧ a < p.base + p.region.size := decide_eq_true_iff

/-- Every offset inside a region fits in 16 bits. -/
theorem Region.size_le (r : Region) : r.size ≤ 2 ^ 16 := by cases r <;> simp [Region.size]

/-- An address is located in the first region that contains it, at its distance from the base. -/
theorem locate_eq_some_iff {cfg : Config} {a : Nat} {r : Region} {off : Offset} :
    locate cfg a = some (r, off) ↔
      ∃ p, (regions cfg).find? (·.contains a) = some p ∧ p.region = r ∧
        BitVec.ofNat 16 (a - p.base) = off := by
  simp only [locate, Option.map_eq_some_iff, Prod.mk.injEq]

/-- Settles O8: the region found is one of the configuration's and contains the address. -/
theorem locatedAddressIsInItsRegion : Obligations.LocatedAddressIsInItsRegion := by
  intro cfg a r off h
  obtain ⟨p, hp, rfl, rfl⟩ := locate_eq_some_iff.1 h
  have hcontains := List.find?_some hp
  obtain ⟨hle, hlt⟩ := Placed.contains_iff.1 hcontains
  refine ⟨locate_hasRegion h, p.base, regionBase_of_mem (List.mem_of_find?_eq_some hp), hle, hlt, ?_⟩
  have := p.region.size_le
  exact Nat.mod_eq_of_lt (by omega)

/-- Neither of two regions that share an address ends before the other begins. -/
theorem Placed.not_apart {p q : Placed} {a : Nat} (hp : p.contains a = true)
    (hq : q.contains a = true) :
    ¬ (p.base + p.region.size ≤ q.base ∨ q.base + q.region.size ≤ p.base) := by
  have hpa := Placed.contains_iff.1 hp
  have hqa := Placed.contains_iff.1 hq
  omega

/-- Compatible regions that share an address are MTIME regions of one cell, at one base (R10(d)). -/
theorem Placed.shared_cell {p q : Placed} {a : Nat} (h : p.compatible q = true)
    (hp : p.contains a = true) (hq : q.contains a = true) :
    ∃ c, p.cell = some c ∧ q.cell = some c ∧ p.base = q.base := by
  have hnot := Placed.not_apart hp hq
  rcases p with ⟨r, base, _ | c⟩ <;> rcases q with ⟨r', base', _ | c'⟩
  case some.some =>
    by_cases hc : c = c'
    · exact ⟨c, rfl, by rw [hc], by simpa [Placed.compatible, hc] using h⟩
    · exact absurd (by simpa [Placed.compatible, hc] using h) hnot
  all_goals exact absurd (by simpa [Placed.compatible] using h) hnot

theorem Placed.compatible_symm {p q : Placed} (h : p.compatible q = true) :
    q.compatible p = true := by
  rcases p with ⟨r, base, _ | c⟩ <;> rcases q with ⟨r', base', _ | c'⟩
  case some.some =>
    by_cases hc : c = c'
    · simpa [Placed.compatible, hc, eq_comm] using h
    · simpa [Placed.compatible, hc, Ne.symm hc, or_comm] using h
  all_goals simpa [Placed.compatible, or_comm] using h

/-- The regions of a well-formed configuration that contain one address are one region, or MTIME regions
of one cell at one base. -/
theorem regions_shared {cfg : Config} {p q : Placed} {a : Nat} (hwf : cfg.wf = true)
    (hp : p ∈ regions cfg) (hq : q ∈ regions cfg) (hpa : p.contains a = true)
    (hqa : q.contains a = true) :
    q = p ∨ ∃ c, q.cell = some c ∧ p.cell = some c ∧ q.base = p.base := by
  obtain ⟨-, -, hcompat, -⟩ := Config.wf_iff.1 hwf
  have hsymm : Std.Symm fun p q : Placed => p.compatible q = true :=
    ⟨fun _ _ => Placed.compatible_symm⟩
  by_cases hne : q = p
  · exact .inl hne
  · exact .inr (Placed.shared_cell (hcompat.forall hq hp hne) hqa hpa)

/-- A region with a cell is the MTIME region of an MTIMER on that cell. -/
theorem mtimer_of_cell {cfg : Config} {p : Placed} {c : Nat} (hp : p ∈ regions cfg)
    (hc : p.cell = some c) :
    ∃ t d, cfg.mtimers[t]? = some d ∧ d.mtimeCell = c ∧ p.region = .mtime t := by
  rcases mem_regions.1 hp with
    ⟨t, d, hd, rfl⟩ | ⟨t, d, -, -, rfl⟩ | ⟨m, d, -, rfl⟩ | ⟨m, d, -, rfl⟩
  · exact ⟨t, d, hd, Option.some.inj hc, rfl⟩
  · cases hc
  · cases hc
  · cases hc

/-- Settles O9: some region contains the address, and it is the given one or shares its cell. -/
theorem everyRegionAddressIsLocated : Obligations.EveryRegionAddressIsLocated := by
  intro cfg r base k hwf hr hb hk
  obtain ⟨p, hp, rfl⟩ := exists_placed hr
  obtain rfl : p.base = base := Option.some.inj ((regionBase_of_mem hp).symm.trans hb)
  have hpa : p.contains (p.base + k) = true :=
    Placed.contains_iff.2 ⟨Nat.le_add_right .., Nat.add_lt_add_left hk _⟩
  obtain ⟨q, hfind⟩ : ∃ q, (regions cfg).find? (·.contains (p.base + k)) = some q :=
    Option.isSome_iff_exists.1 (List.find?_isSome.2 ⟨p, hp, hpa⟩)
  have hq := List.mem_of_find?_eq_some hfind
  have hlocate (hbase : q.base = p.base) :
      locate cfg (p.base + k) = some (q.region, BitVec.ofNat 16 k) :=
    locate_eq_some_iff.2 ⟨q, hfind, rfl, by rw [hbase, Nat.add_sub_cancel_left]⟩
  have hqa := List.find?_some hfind
  rcases regions_shared hwf hp hq hpa hqa with rfl | ⟨c, hqc, hpc, hbase⟩
  · exact ⟨_, hlocate rfl, .inl rfl⟩
  · obtain ⟨t, d, hd, hdc, hpr⟩ := mtimer_of_cell hp hpc
    obtain ⟨t', d', hd', hdc', hqr⟩ := mtimer_of_cell hq hqc
    exact ⟨_, hlocate hbase, .inr ⟨t, t', d, d', hpr, hqr, hd, hd', hdc'.trans hdc.symm⟩⟩

/-- The MTIME regions come first, in the order of their devices. -/
theorem regions_getElem?_mtime {cfg : Config} {t : Nat} {d : Mtimer}
    (hd : cfg.mtimers[t]? = some d) : (regions cfg)[t]? = some (placedMtime (d, t)) := by
  obtain ⟨ht, rfl⟩ := List.getElem?_eq_some_iff.1 hd
  simp [regions, List.getElem?_append, ht]

/-- An address of an MTIMER's MTIME region is located in no later MTIMER's (log 20). -/
theorem locate_mtime_first {cfg : Config} {base a t t' : Nat} {off : Offset}
    (h : locate cfg a = some (.mtime t', off)) (hb : regionBase cfg (.mtime t) = some base)
    (ha : base ≤ a ∧ a < base + (Region.mtime t).size) : t' ≤ t := by
  obtain ⟨d, hd, rfl⟩ := Option.map_eq_some_iff.1 hb
  obtain ⟨q, hfind, hqr, -⟩ := locate_eq_some_iff.1 h
  obtain ⟨-, k, hk, rfl, hbefore⟩ := List.find?_eq_some_iff_getElem.1 hfind
  rcases Nat.lt_or_ge t k with htk | hkt
  · obtain ⟨_, ht⟩ := List.getElem?_eq_some_iff.1 (regions_getElem?_mtime hd)
    have hnot : (placedMtime (d, t)).contains a = false := by simpa [ht] using hbefore t htk
    rw [Placed.contains_iff.2 ha] at hnot
    cases hnot
  · have hlen : k < cfg.mtimers.length := hkt.trans_lt (List.getElem?_eq_some_iff.1 hd).1
    obtain ⟨_, hkr⟩ :=
      List.getElem?_eq_some_iff.1 (regions_getElem?_mtime (List.getElem?_eq_getElem hlen))
    rw [hkr] at hqr
    cases hqr
    exact hkt

/-- Settles O10: the address is located in the operation's region, of devices on one MTIME cell the
first's, and the encoding decodes to the operation. -/
theorem physicalAccessReachesOperation : Obligations.PhysicalAccessReachesOperation := by
  intro cfg master i hwf hi hfirst
  obtain ⟨hregion, henc⟩ := Bool.and_eq_true_iff.1 hi
  have hsize := encode_off_lt henc
  obtain ⟨p, hp, hpr⟩ := exists_placed hregion
  have hbase : regionBase cfg (encode i).region = some p.base := hpr ▸ regionBase_of_mem hp
  have haddr : (encodeAccess cfg master i).addr = p.base + (encode i).off.toNat := by
    rw [encodeAccess, Descriptor.addr, hbase, Option.getD_some]
  obtain ⟨r, hlocate, hr⟩ := everyRegionAddressIsLocated cfg _ _ _ hwf hregion hbase hsize
  rw [BitVec.ofNat_toNat, BitVec.setWidth_eq] at hlocate
  have hr : r = (encode i).region := by
    rcases hr with hr | ⟨t, t', d, d', hrt, rfl, hd, hd', hcell⟩
    · exact hr
    · rw [hrt] at hbase hsize
      have hle : t' ≤ t := locate_mtime_first hlocate hbase
        ⟨Nat.le_add_right .., Nat.add_lt_add_left hsize _⟩
      have hge : ¬ t' < t := fun hlt => hfirst t d hrt hd t' d' hlt hd' hcell
      rw [hrt, Nat.le_antisymm hle (Nat.not_lt.1 hge)]
  rw [haddr, hlocate, hr]
  exact congrArg some (encodedInstructionDecodes i henc)

end Sys2Proof

namespace Sys2Proof.Machine

/-! ### MSIP reads back (30_encoding.md R84) -/

/-- The stored bit of a word, zero-extended, is the word with its upper 31 bits zero. -/
theorem zextBit_warlBit (v : Word32) : zextBit (warlBit v) = v &&& 1#32 := by
  rw [BitVec.and_one_eq_setWidth_ofBool_getLsbD, warlBit, zextBit]
  cases v.getLsbD 0 <;> rfl

/-- MSIP.R of a served index answers the bit. -/
theorem exec_msipR_admitted {s : State} {m : Nat} {d : SwiDevice} {i : HartIndex}
    (hd : s.cfg.mswis[m]? = some d) (hi : i.toNat < hartCount d.harts) :
    exec (.msipR m i) s = .next (s.respond (.data32 (zextBit (s.getMsip m i)))) := by
  rw [exec, execMsipR_eq hd, indexForbidden_served hi, guarded_none]

/-- MSIP.W of a served index stores bit 0 of its word. -/
theorem exec_msipW_admitted {s : State} {m : Nat} {d : SwiDevice} {i : HartIndex} (v : Word32)
    (hd : s.cfg.mswis[m]? = some d) (hi : i.toNat < hartCount d.harts) :
    exec (.msipW m i v) s = .next ((s.setMsip m i (warlBit v)).respond .ack) := by
  rw [exec, execMsipW_eq hd, indexForbidden_served hi, guarded_none]

/-- Settles O29: both operations are admitted, and the read answers the bit the write stored. -/
theorem msipReadsBackOneBit : Obligations.MsipReadsBackOneBit := by
  intro s m d i v hd hi
  have hread := exec_msipR_admitted (s := (s.setMsip m i (warlBit v)).respond .ack) hd hi
  rw [State.getMsip_respond, State.getMsip_setMsip_same, zextBit_warlBit] at hread
  exact ⟨_, exec_msipW_admitted v hd hi, hread⟩

end Sys2Proof.Machine

namespace Sys2Proof.Machine

variable {s u : State}

/-! ### The MTIP wires (R108 to R110) -/

/-- While the compare register holds a value, the wire compares the counter of the device's cell. -/
theorem State.mtipWire_known {t : Nat} {d : Mtimer} {i : HartIndex} {w : Word64}
    (hd : s.cfg.mtimers[t]? = some d) (hw : (s.getCompare t i).value = some w) :
    s.mtipWire t i = some (decide (w.toNat ≤ (s.getMtime d.mtimeCell).toNat)) := by
  simp only [State.mtipWire, hd, hw, Option.map_some]

/-- While the compare register is unknown, the wire has no value. -/
theorem State.mtipWire_unknown {t : Nat} {i : HartIndex} (hw : (s.getCompare t i).value = none) :
    s.mtipWire t i = none := by
  cases hd : s.cfg.mtimers[t]? with
  | none => simp only [State.mtipWire, hd]
  | some d => simp only [State.mtipWire, hd, hw, Option.map_none]

/-- Settles O26: a wire with a known compare register is the comparison, an unknown one has no
value. -/
theorem mtipIsUnsignedComparison : Obligations.MtipIsUnsignedComparison := by
  intro s t d i hd
  refine ⟨fun w hw => ?_, State.mtipWire_unknown⟩
  rw [State.mtipWire_known hd hw]
  simp only [Option.some.injEq, decide_eq_true_eq, decide_eq_false_iff_not, Nat.not_le, and_self]

/-- When the counters move and nothing else of the MTIMERs does, a wire on a cell compares the
cell's new count. -/
theorem mtipWire_of_counter {t c : Nat} {d : Mtimer} {i : HartIndex} {w : Word64}
    (hcfg : u.cfg = s.cfg) (hcmp : u.mtimecmp = s.mtimecmp) (hd : s.cfg.mtimers[t]? = some d)
    (hc : d.mtimeCell = c) (hw : (s.getCompare t i).value = some w) :
    u.mtipWire t i = some (decide (w.toNat ≤ (u.getMtime c).toNat)) := by
  have hreg : u.getCompare t i = s.getCompare t i := by
    rw [State.getCompare, hcmp, State.getCompare]
  rw [State.mtipWire_known (hcfg ▸ hd) (hreg ▸ hw), hc]

/-! ### MTIME.R and MTIME.W (R103, R111, R112) -/

/-- Settles O17: the access is the operation's encoding, and a whole read is admitted. -/
theorem mtimeReadAnswersCounter : Obligations.MtimeReadAnswersCounter :=
  fun _ t _ hd => ⟨encodedInstructionDecodes (.mtimeR t .full) rfl,
    exec_mtimeR_admitted hd (laneForbidden_full _)⟩

theorem encode_mtimeW_full (t : Nat) (v : Word64) :
    encode (.mtimeW t (.full v)) = ⟨.mtime t, 0#16, .store 8 v.toNat⟩ := by
  simp only [encode, WriteData.lane, WriteData.value, Lane.bytes]
  rfl

/-- Settles O18: a whole write is admitted and writes the cell; the wires compare the new
count. -/
theorem mtimeWriteStoresCounter : Obligations.MtimeWriteStoresCounter := by
  intro s t d v hd
  obtain ⟨u, hu, hframe, hother, hcell⟩ :=
    exec_mtimeW_frame hd (w := .full v) (laneForbidden_full _)
  have hcmp : u.mtimecmp = s.mtimecmp := by rw [hframe]
  have hdecode := encodedInstructionDecodes (.mtimeW t (.full v)) rfl
  rw [encode_mtimeW_full] at hdecode
  refine ⟨hdecode, u, hu, hframe, hcell, hother, ?wires⟩
  case wires =>
    intro t' d' i w hd' hc hw
    rw [mtipWire_of_counter (exec_cfg hu) hcmp hd' hc hw, hcell]
    rfl

/-- Settles O19: the write fills the cell, and the other device reads the same cell. -/
theorem sharedMtimeIsOneRegister : Obligations.SharedMtimeIsOneRegister := by
  intro s t₁ t₂ d₁ d₂ v hd₁ hd₂ hcells
  obtain ⟨u, hu, hframe, -, hcell⟩ :=
    exec_mtimeW_frame hd₁ (w := .full v) (laneForbidden_full _)
  have hcount : u.getMtime d₂.mtimeCell = v := hcells ▸ hcell
  have hread := exec_mtimeR_admitted (s := u) (exec_cfg hu ▸ hd₂) (laneForbidden_full _)
  rw [hcount] at hread
  exact ⟨u, hu, hread, fun t i => by rw [hframe]; rfl⟩

/-! ### MTIMECMP.R and MTIMECMP.W (R113, R114) -/

/-- Settles O20: a whole read of a served index is admitted, and answers by whether the register has
a value. -/
theorem mtimecmpReadAnswersValueOrDraw : Obligations.MtimecmpReadAnswersValueOrDraw := by
  intro s t d i hd hi
  rw [exec_mtimecmpR_admitted hd hi (laneForbidden_full _)]
  refine ⟨fun w hw => ?known, fun hw => ?unknown⟩
  case known => rw [readCompare_known _ hw]; rfl
  case unknown => rw [readCompare_unknown _ hw]; rfl

/-- Settles O21: a whole write of a served index is admitted and gives the register the value; its
wire compares that, and every other wire has the inputs it had. -/
theorem mtimecmpWriteStoresCompare : Obligations.MtimecmpWriteStoresCompare := by
  intro s t d i v hd hi
  obtain ⟨u, hu, hframe, hreg, hother⟩ :=
    exec_mtimecmpW_frame hd hi (w := .full v) (laneForbidden_full _)
  have hcfg : u.cfg = s.cfg := exec_cfg hu
  have hcount : ∀ c, u.getMtime c = s.getMtime c := fun c => by rw [hframe]; rfl
  have hvalue : (u.getCompare t i).value = some v := by rw [hreg, writeCompare_full]
  refine ⟨u, hu, hframe, hvalue, ?own, fun t' i' hne => ⟨hother t' i' hne, ?others⟩⟩
  case own => rw [State.mtipWire_known (hcfg ▸ hd) hvalue, hcount]
  case others => simp only [State.mtipWire, hcfg, hother t' i' hne, hcount]

/-- An operation leaves a compare register that holds a value one that does: only MTIMECMP.W writes
one. -/
theorem exec_keeps_compare_known {instr : Instr} {t : Nat} {i : HartIndex}
    (h : exec instr s = .next u) (hk : (s.getCompare t i).value ≠ none) :
    (u.getCompare t i).value ≠ none := by
  by_cases hsame : u.getCompare t i = s.getCompare t i
  · rwa [hsame]
  · obtain ⟨w, rfl⟩ := exec_changes_compare h hsame
    cases exec_effect h with
    | nothing _ _ hs => exact absurd (hs.getCompare t i) hsame
    | mtimecmp =>
      rw [State.getCompare_respond, State.getCompare_setCompare_same]
      exact writeCompare_known w hk

/-- Settles O52: a step that changes a compare register did an operation, which leaves it a
value. -/
theorem compareStaysKnown : Obligations.CompareStaysKnown := by
  intro s u t i hstep hk
  by_cases hbank : u.mtimecmp = s.mtimecmp
  · rwa [State.getCompare, hbank]
  · obtain ⟨a, rest, r, off, instr, -, -, -, he⟩ := step_changes_register hstep (.inl hbank)
    exact exec_keeps_compare_known (s := { s with agenda := rest, master := a.master }) he hk

/-! ### What changes a counter (R106, R107, R112, R117) -/

/-- Below the top of the range a counter plus one is one more as a number (R106). -/
theorem toNat_add_one_of_ne_top {x : Word64} (h : x ≠ BitVec.allOnes 64) :
    (x + 1#64).toNat = x.toNat + 1 := by
  have htop : x.toNat ≠ 2 ^ 64 - 1 := fun hx => h (BitVec.eq_of_toNat_eq (by rw [hx]; rfl))
  have hlt : x.toNat + 1 < 2 ^ 64 := by omega
  exact BitVec.toNat_add_of_lt hlt

/-- The next event is a store located in an MTIME region on the cell. -/
def State.StoresMtime (s : State) (c : Nat) : Prop :=
  ∃ a rest n v t d off, s.agenda = .bus a :: rest ∧ a.op = .store n v ∧
    locate s.cfg a.addr = some (.mtime t, off) ∧ s.cfg.mtimers[t]? = some d ∧ d.mtimeCell = c

/-- An access that decodes to MTIME.W is a store in the MTIME region of its device. -/
theorem decode_mtimeW {r : Region} {off : Offset} {op : BusOp} {t : Nat} {w : WriteData}
    (h : decode ⟨r, off, op⟩ = .ok (.mtimeW t w)) : r = .mtime t ∧ ∃ n v, op = .store n v := by
  obtain ⟨n, v, hop, -⟩ := decode_store_of_dir h rfl
  exact ⟨(decode_region h).symm, n, v, hop⟩

/-- An operation that changes a counter is MTIME.W of a device on its cell. -/
theorem exec_changes_mtime {instr : Instr} {c : Nat} (h : exec instr s = .next u)
    (hne : u.getMtime c ≠ s.getMtime c) :
    ∃ t w d, instr = .mtimeW t w ∧ s.cfg.mtimers[t]? = some d ∧ d.mtimeCell = c := by
  cases exec_effect h with
  | nothing _ _ hs => exact absurd (hs.getMtime c) hne
  | mtime t w d hd =>
    by_cases hc : c = d.mtimeCell
    · exact ⟨t, w, d, rfl, hd, hc.symm⟩
    · exact absurd (s.getMtime_setMtime_other _ hc) hne
  | mtimecmp => exact absurd rfl hne
  | msip => exact absurd rfl hne
  | edge => exact absurd rfl hne

/-- A step that changes a counter is a store to an MTIME region on its cell, or an enabled tick of
that cell. -/
theorem step_changes_mtime {c : Nat} (h : step s = .next u) (hne : u.getMtime c ≠ s.getMtime c) :
    s.StoresMtime c ∨
    (s.Moves (.tick c) ∧ tickEnabled s c = true ∧ u.getMtime c = s.getMtime c + 1#64) := by
  have unchanged : ¬ s.SameDevices u := fun hs => hne (hs.getMtime c)
  cases step_did h with
  | quiet hs => exact absurd hs.1 unchanged
  | undefined a rest why d _ hu =>
    subst hu
    exact absurd (badAccess_sameDevices why d { s with agenda := rest, master := a.master })
      unchanged
  | operation a rest r off i ha hl _ hd he =>
    obtain ⟨t, w, d, rfl, hdev, hc⟩ := exec_changes_mtime he hne
    obtain ⟨rfl, n, v, hop⟩ := decode_mtimeW hd
    exact .inl ⟨a, rest, n, v, t, d, off, ha, hop, hl, hdev, hc⟩
  | tick s' c' hs hw ht hu =>
    have hcount := hs.1.getMtime c
    subst hu
    by_cases hc : c = c'
    · subst hc
      exact .inr ⟨hw, ht, by rw [State.getMtime_setMtime_same, hcount]⟩
    · exact absurd ((s'.getMtime_setMtime_other _ hc).trans hcount) hne
  | deliver s' d i dev hart k hs _ _ _ _ hu => exact absurd (hu ▸ hs.1.getMtime c) hne
  | hartWrite hart b rest _ hu => exact absurd (hu ▸ rfl) hne

/-- TICK is enabled at the top of the range only under `wrap` (R107). -/
theorem wrap_of_tickEnabled {c : Nat} (ht : tickEnabled s c = true)
    (htop : s.getMtime c = BitVec.allOnes 64) : s.cfg.mtimeWrap = .wrap := by
  cases hw : s.cfg.mtimeWrap with
  | wrap => rfl
  | stuck => exact absurd htop ((tickEnabled_iff.1 ht).2 hw)

/-- Settles O55: a step that changes the counter is a store or an enabled tick, and a tick makes it
smaller only at the top. -/
theorem mtimeGoesBackOnlyByWriteOrWrap : Obligations.MtimeGoesBackOnlyByWriteOrWrap := by
  intro s u c hstep
  refine ⟨fun hne => ?changed, fun hlt => ?smaller⟩
  case changed =>
    refine (step_changes_mtime hstep hne).imp_right fun ⟨hw, ht, hu⟩ => ?_
    exact ⟨hw, (tickEnabled_iff.1 ht).1, hu, wrap_of_tickEnabled ht⟩
  case smaller =>
    have hne : u.getMtime c ≠ s.getMtime c := fun h => by rw [h] at hlt; exact Nat.lt_irrefl _ hlt
    refine (step_changes_mtime hstep hne).imp_right fun ⟨_, ht, hu⟩ => ?_
    have htop : s.getMtime c = BitVec.allOnes 64 := by
      by_contra hbelow
      rw [hu, toNat_add_one_of_ne_top hbelow] at hlt
      omega
    exact ⟨wrap_of_tickEnabled ht htop, htop, by rw [hu, htop]; rfl⟩

/-! ### TICK (R106, R107) -/

/-- With an event on the agenda, the step takes it off and performs it. -/
theorem step_event {e : Event} {rest : List Event} (ha : s.agenda = e :: rest) :
    step s = perform e { s with agenda := rest } := by
  simp only [step, ha]

theorem execTick_enabled {c : Nat} (ht : tickEnabled s c = true) :
    execTick c s = s.setMtime c (s.getMtime c + 1#64) := if_pos ht

theorem execTick_disabled {c : Nat} (ht : tickEnabled s c = false) : execTick c s = s :=
  if_neg (Bool.eq_false_iff.1 ht)

/-- The step of an enabled TICK event adds one to its cell and changes nothing else. -/
theorem step_tick_enabled {c : Nat} {rest : List Event} (ha : s.agenda = .tick c :: rest)
    (ht : tickEnabled s c = true) :
    ∃ u, step s = .next u ∧ u = { s with agenda := rest, mtime := u.mtime } ∧
      u.getMtime c = s.getMtime c + 1#64 ∧ ∀ c', c' ≠ c → u.getMtime c' = s.getMtime c' := by
  have hu : step s = .next (State.setMtime { s with agenda := rest } c (s.getMtime c + 1#64)) := by
    rw [step_event ha, perform, execTick_enabled (by exact ht)]
    rfl
  exact ⟨_, hu, rfl, State.getMtime_setMtime_same .., fun c' => State.getMtime_setMtime_other _ _⟩

/-- The step of a TICK event that is not enabled takes the event off the agenda (log 18). -/
theorem step_tick_disabled {c : Nat} {rest : List Event} (ha : s.agenda = .tick c :: rest)
    (ht : tickEnabled s c = false) : step s = .next { s with agenda := rest } := by
  rw [step_event ha, perform, execTick_disabled (by exact ht)]

theorem tickEnabled_below_top {c : Nat} (hc : c ∈ cells s.cfg)
    (hne : s.getMtime c ≠ BitVec.allOnes 64) : tickEnabled s c = true :=
  tickEnabled_iff.2 ⟨hc, fun _ => hne⟩

theorem tickEnabled_wrap {c : Nat} (hc : c ∈ cells s.cfg) (hw : s.cfg.mtimeWrap = .wrap) :
    tickEnabled s c = true :=
  tickEnabled_iff.2 ⟨hc, fun hs => by rw [hw] at hs; cases hs⟩

/-- Settles O38: TICK is enabled below the top; the wires follow from the new count. -/
theorem tickAdvancesItsCell : Obligations.TickAdvancesItsCell := by
  intro s c rest ha hc hne
  obtain ⟨u, hstep, hframe, hcount, hother⟩ := step_tick_enabled ha (tickEnabled_below_top hc hne)
  have hcmp : u.mtimecmp = s.mtimecmp := by rw [hframe]
  have hnum : (u.getMtime c).toNat = (s.getMtime c).toNat + 1 := by
    rw [hcount, toNat_add_one_of_ne_top hne]
  refine ⟨u, hstep, hframe, hnum, hother, fun t d i w hd hcell hw => ?_⟩
  rw [mtipWire_of_counter (configurationNeverChanges s u hstep) hcmp hd hcell hw, hnum]

/-- Settles O39: at the top TICK is enabled under `wrap`, where one more is 0, and not under
`stuck`. -/
theorem tickAtTheTop : Obligations.TickAtTheTop := by
  intro s c rest ha hc htop
  refine ⟨fun hw => ?wrap, fun hw => ?stuck⟩
  case wrap =>
    obtain ⟨u, hstep, hframe, hcount, hother⟩ := step_tick_enabled ha (tickEnabled_wrap hc hw)
    exact ⟨u, hstep, hframe, by rw [hcount, htop]; rfl, hother⟩
  case stuck =>
    have hdis : tickEnabled s c ≠ true := fun ht => (tickEnabled_iff.1 ht).2 hw htop
    exact step_tick_disabled ha (Bool.eq_false_iff.2 hdis)

/-- Under `wrap`, `n` TICK events of a cell in a row add `n` to it and do nothing else. -/
theorem run_ticks {c : Nat} {rest : List Event} (n : Nat) (hw : s.cfg.mtimeWrap = .wrap)
    (hc : c ∈ cells s.cfg) (ha : s.agenda = List.replicate n (.tick c) ++ rest) :
    ∃ u, Host.Core.run core n s = .next u ∧ u = { s with agenda := rest, mtime := u.mtime } ∧
      u.getMtime c = s.getMtime c + BitVec.ofNat 64 n ∧
      ∀ c', c' ≠ c → u.getMtime c' = s.getMtime c' := by
  induction n generalizing s with
  | zero =>
    have ha' : rest = s.agenda := ha.symm
    exact ⟨s, rfl, by rw [ha'], (BitVec.add_zero _).symm, fun _ _ => rfl⟩
  | succ n ih =>
    obtain ⟨v, hstep, hv, hcount, hother⟩ := step_tick_enabled ha (tickEnabled_wrap hc hw)
    have hcfg : v.cfg = s.cfg := configurationNeverChanges s v hstep
    obtain ⟨u, hrun, hu, hcount', hother'⟩ :=
      ih (hcfg ▸ hw) (hcfg ▸ hc) (by rw [hv]; rfl)
    refine ⟨u, (run_succ core n hstep).trans hrun, ?frame, ?count, fun c' hc' => ?other⟩
    case frame => rw [hu, hv]
    case count => rw [hcount', hcount, BitVec.add_assoc, Nat.add_comm n 1, BitVec.ofNat_add]
    case other => rw [hother' c' hc', hother c' hc']

/-- Settles O58: each event of the run ticks; R40's premise is not needed, since no TICK sets a
mark. -/
theorem ticksAddUp : Obligations.TicksAddUp :=
  fun n _ _ _ _ hw hc ha => run_ticks n hw hc ha

/-! ### The fair scheduler (R70, R106, R157; log 5) -/

/-- The same place in the scheduler: the agenda, the turn and the patience are as they were. -/
def State.SameSchedule (s u : State) : Prop :=
  u.agenda = s.agenda ∧ u.turn = s.turn ∧ u.patience = s.patience

theorem badAccess_sameSchedule (why : BadReason) (d : Descriptor) (s : State) :
    s.SameSchedule (badAccess why d s) := by
  rw [badAccess_frame]
  exact ⟨rfl, rfl, rfl⟩

theorem guarded_sameSchedule {f : Option BadReason} {i : Instr} {e : State}
    (h : guarded f i s e = .next u) (he : s.SameSchedule e) : s.SameSchedule u := by
  rcases guarded_next h with ⟨-, rfl⟩ | ⟨why, -, rfl⟩
  · exact he
  · exact badAccess_sameSchedule ..

theorem readCompare_sameSchedule (t : Nat) (i : HartIndex) (l : Lane) (s : State) :
    s.SameSchedule (readCompare t i l s) := by
  unfold readCompare
  split <;> exact ⟨rfl, rfl, rfl⟩

/-- No operation moves the scheduler. -/
theorem exec_sameSchedule {i : Instr} (h : exec i s = .next u) : s.SameSchedule u := by
  cases i with
  | mtimeR t l =>
    rw [exec, execMtimeR] at h
    split at h
    · cases h
    · exact guarded_sameSchedule h ⟨rfl, rfl, rfl⟩
  | mtimeW t w =>
    rw [exec, execMtimeW] at h
    split at h
    · cases h
    · exact guarded_sameSchedule h ⟨rfl, rfl, rfl⟩
  | mtimecmpR t i l =>
    rw [exec, execMtimecmpR] at h
    split at h
    · cases h
    · exact guarded_sameSchedule h (readCompare_sameSchedule ..)
  | mtimecmpW t i w =>
    rw [exec, execMtimecmpW] at h
    split at h
    · cases h
    · exact guarded_sameSchedule h ⟨rfl, rfl, rfl⟩
  | mswiReserved m a =>
    rw [exec, execMswiReserved] at h
    split at h
    · cases h
    · cases h
      exact badAccess_sameSchedule ..
  | msipR m i =>
    rw [exec, execMsipR] at h
    split at h
    · cases h
    · exact guarded_sameSchedule h ⟨rfl, rfl, rfl⟩
  | msipW m i v =>
    rw [exec, execMsipW] at h
    split at h
    · cases h
    · exact guarded_sameSchedule h ⟨rfl, rfl, rfl⟩
  | sswiReserved m a =>
    rw [exec, execSswiReserved] at h
    split at h
    · cases h
    · cases h
      exact badAccess_sameSchedule ..
  | setssipR m i =>
    rw [exec, execSetssipR] at h
    split at h
    · cases h
    · exact guarded_sameSchedule h ⟨rfl, rfl, rfl⟩
  | setssipW m i v =>
    rw [exec, execSetssipW] at h
    split at h
    · cases h
    · exact guarded_sameSchedule h (by split <;> exact ⟨rfl, rfl, rfl⟩)

theorem execTick_sameSchedule (c : Nat) (s : State) : s.SameSchedule (execTick c s) := by
  rcases execTick_cases c s with ⟨-, h⟩ | ⟨-, h⟩ <;> rw [h] <;> exact ⟨rfl, rfl, rfl⟩

theorem execDeliver_sameSchedule (d : Nat) (i : HartIndex) (s : State) :
    s.SameSchedule (execDeliver d i s) := by
  rcases execDeliver_cases d i s with ⟨_, _, _, _, _, h⟩ | h <;> rw [h] <;> exact ⟨rfl, rfl, rfl⟩

theorem runAgent_sameSchedule (e : Option Event) (s : State) : s.SameSchedule (runAgent e s) := by
  unfold runAgent
  split
  · exact execTick_sameSchedule ..
  · exact execDeliver_sameSchedule ..
  · exact ⟨rfl, rfl, rfl⟩

theorem performBus_sameSchedule {a : BusAccess} (h : performBus a s = .next u) :
    s.SameSchedule u := by
  unfold performBus at h
  split at h
  · cases h
    exact ⟨rfl, rfl, rfl⟩
  · split at h
    · unfold performDescriptor at h
      split at h
      · exact exec_sameSchedule (s := { s with master := a.master }) h
      · cases h
        exact badAccess_sameSchedule _ _ { s with master := a.master }
    · cases h
      exact ⟨rfl, rfl, rfl⟩

/-- No event that happens moves the scheduler. -/
theorem perform_sameSchedule {e : Event} (h : perform e s = .next u) : s.SameSchedule u := by
  cases e with
  | bus a => exact performBus_sameSchedule h
  | tick c => cases h; exact execTick_sameSchedule c s
  | deliver d i => cases h; exact execDeliver_sameSchedule d i s
  | sampleMip hart => cases h; exact ⟨rfl, rfl, rfl⟩
  | writeSsip hart b => cases h; exact ⟨rfl, rfl, rfl⟩

/-- How many steps it takes until the scheduler owes an internal agent a step: one for each event on
the agenda, and for each event that patience still lets come one in which it comes and one in which
it happens. -/
def State.wait (s : State) : Nat := 2 * s.patience + s.agenda.length

theorem State.wait_eq_zero : s.wait = 0 ↔ s.agenda = [] ∧ s.patience = 0 := by
  rw [State.wait, ← List.length_eq_zero_iff]
  omega

/-- Every step until then shortens the wait and keeps the turn. -/
theorem step_wait {n : Nat} (hw : s.wait = n + 1) (h : step s = .next u) :
    u.wait = n ∧ u.turn = s.turn := by
  cases ha : s.agenda with
  | nil =>
    rw [State.wait, ha, List.length_nil] at hw
    obtain ⟨p, hp⟩ : ∃ p, s.patience = p + 1 := Nat.exists_eq_succ_of_ne_zero (by omega)
    rw [step_idle ha, idle_event hp] at h
    cases h
    exact ⟨by simp only [State.wait, List.length_singleton]; omega, rfl⟩
  | cons e rest =>
    rw [State.wait, ha, List.length_cons] at hw
    rw [step_event ha] at h
    obtain ⟨hagenda, hturn, hpatience⟩ := perform_sameSchedule h
    exact ⟨by rw [State.wait, hagenda, hpatience]; exact Nat.succ.inj hw, hturn⟩

/-- The owed step: the agent whose turn it is moves, and the turn goes on to the next. -/
theorem step_owed (hw : s.wait = 0) :
    step s = .next (runAgent (agentAt s.cfg (s.turn % agentCount s.cfg))
      { s with turn := s.turn + 1, patience := s.freeNat, draws := s.draws + 1 }) := by
  obtain ⟨ha, hp⟩ := State.wait_eq_zero.1 hw
  rw [step_idle ha, idle_owed hp]

/-- Some steps lead from the one state to the other. -/
abbrev State.Reaches : State → State → Prop := Relation.ReflTransGen fun s u => step s = .next u

/-- Steps that lead to a state are a run to it. -/
theorem State.Reaches.run {t : State} (h : s.Reaches t) :
    ∃ n, Host.Core.run core n s = .next t := by
  induction h using Relation.ReflTransGen.head_induction_on with
  | refl => exact ⟨0, rfl⟩
  | head hs _ ih =>
    obtain ⟨n, hn⟩ := ih
    exact ⟨n + 1, (run_succ core n hs).trans hn⟩

theorem State.Reaches.cfg {t : State} (h : s.Reaches t) : t.cfg = s.cfg := by
  induction h with
  | refl => rfl
  | tail _ hs ih => exact (configurationNeverChanges _ _ hs).trans ih

/-- From every state the run comes to an owed step, with the turn as it is. -/
theorem reaches_owed (s : State) : ∃ t, s.Reaches t ∧ t.wait = 0 ∧ t.turn = s.turn := by
  induction hn : s.wait generalizing s with
  | zero => exact ⟨s, .refl, hn, rfl⟩
  | succ n ih =>
    obtain ⟨u, hs⟩ := everyStepGoesOn s
    obtain ⟨hwait, hturn⟩ := step_wait hn hs
    obtain ⟨t, hr, hw, ht⟩ := ih u hwait
    exact ⟨t, hr.head hs, hw, ht.trans hturn⟩

/-- From every state the run comes to the owed step of every later turn. -/
theorem reaches_turn (s : State) (j : Nat) :
    ∃ t, s.Reaches t ∧ t.wait = 0 ∧ t.turn = s.turn + j := by
  induction j with
  | zero => exact reaches_owed s
  | succ j ih =>
    obtain ⟨v, hv, hw, hturn⟩ := ih
    obtain ⟨u, hs⟩ := everyStepGoesOn v
    have huturn : u.turn = v.turn + 1 := by
      rw [step_owed hw] at hs
      cases hs
      obtain ⟨-, hturn', -⟩ := runAgent_sameSchedule _ _
      exact hturn'
    obtain ⟨t, ht, hw', hturn'⟩ := reaches_owed u
    exact ⟨t, hv.trans (ht.head hs), hw', by omega⟩

/-- From every state the run comes to the owed step of every internal agent: weak fairness. -/
theorem reaches_agent (s : State) {k : Nat} (hk : k < agentCount s.cfg) :
    ∃ t, s.Reaches t ∧ t.wait = 0 ∧ t.turn % agentCount t.cfg = k := by
  have hround : s.turn ≤ agentCount s.cfg * s.turn := Nat.le_mul_of_pos_left _ (by omega)
  obtain ⟨t, hr, hw, hturn⟩ := reaches_turn s (k + agentCount s.cfg * s.turn - s.turn)
  refine ⟨t, hr, hw, ?_⟩
  have hturn' : t.turn = k + agentCount s.cfg * s.turn := by omega
  rw [hr.cfg, hturn', Nat.add_mul_mod_self_left, Nat.mod_eq_of_lt hk]

/-! ### Every counter ticks again (R106, R107) -/

/-- From every state the run comes to a state in which the devices themselves tick the cell, if its
TICK is enabled there. -/
theorem reaches_tick {c : Nat} (s : State) (hc : c ∈ cells s.cfg) :
    ∃ t u, s.Reaches t ∧ t.agenda = [] ∧ step t = .next u ∧
      (tickEnabled t c = true → u.getMtime c = t.getMtime c + 1#64) := by
  obtain ⟨k, hk, hagent⟩ := agentAt_tick hc
  obtain ⟨t, hr, hw, hturn⟩ := reaches_agent s hk
  have hagent' : agentAt t.cfg (t.turn % agentCount t.cfg) = some (.tick c) := by
    rw [hturn, hr.cfg, hagent]
  refine ⟨t, _, hr, (State.wait_eq_zero.1 hw).1, step_owed hw, fun ht => ?_⟩
  rw [hagent', runAgent, execTick_enabled (by exact ht)]
  exact State.getMtime_setMtime_same ..

/-- Along a run a counter stays as it is, or some step ticks it or is a store to MTIME on its
cell. -/
theorem State.Reaches.mtime_or_change {t : State} (hr : s.Reaches t) (c : Nat) :
    t.getMtime c = s.getMtime c ∨ ∃ v u, s.Reaches v ∧ step v = .next u ∧
      (u.getMtime c = v.getMtime c + 1#64 ∨ v.StoresMtime c) := by
  induction hr using Relation.ReflTransGen.head_induction_on with
  | refl => exact .inl rfl
  | @head v u hs _ ih =>
    by_cases hsame : u.getMtime c = v.getMtime c
    · rw [← hsame]
      exact ih.imp_right fun ⟨v', u', hr', hchange⟩ => ⟨v', u', hr'.head hs, hchange⟩
    · refine .inr ⟨v, u, .refl, hs, ?_⟩
      exact (step_changes_mtime hs hsame).symm.imp_left fun ⟨_, _, hu⟩ => hu

/-- Settles O60: the cell's TICK agent gets its turn. Under `wrap` it is enabled there; otherwise it
is enabled because the counter is still below the top, or a tick or a store came first. R40's
premise is not needed. -/
theorem everyCellTicksAgain : Obligations.EveryCellTicksAgain := by
  intro s c _ hc
  obtain ⟨t, u, hr, ha, hs, htick⟩ := reaches_tick s hc
  have hct : c ∈ cells t.cfg := hr.cfg ▸ hc
  refine ⟨fun hw => ?wrap, fun hbelow => ?below⟩
  case wrap =>
    obtain ⟨n, hn⟩ := hr.run
    exact ⟨n, t, u, hn, ha, hs, htick (tickEnabled_wrap hct (hr.cfg ▸ hw))⟩
  case below =>
    rcases hr.mtime_or_change c with hsame | ⟨v, v', hrv, hv, hchange⟩
    · obtain ⟨n, hn⟩ := hr.run
      exact ⟨n, t, u, hn, hs, .inl (htick (tickEnabled_below_top hct (hsame ▸ hbelow)))⟩
    · obtain ⟨n, hn⟩ := hrv.run
      exact ⟨n, v, v', hn, hv, hchange⟩

end Sys2Proof.Machine

namespace Sys2Proof

/-- Format I puts a hart index's register at four times the index (R81). -/
theorem ofNat_four_mul_index (i : HartIndex) : BitVec.ofNat 16 (4 * i.toNat) = offsetI i := by
  rw [← offsetI_toNat, BitVec.ofNat_toNat, BitVec.setWidth_eq]

end Sys2Proof

namespace Sys2Proof.Machine

/-! ### MSIP.R and MSIP.W (41_mswi.md R133 to R135) -/

/-- MSIP.W of a served index stores bit 0 of its word in that register and changes nothing else. -/
theorem exec_msipW_frame {s : State} {m : Nat} {d : SwiDevice} {i : HartIndex} (v : Word32)
    (hd : s.cfg.mswis[m]? = some d) (hi : i.toNat < hartCount d.harts) :
    ∃ u, exec (.msipW m i v) s = .next u ∧ u = { s with msip := u.msip, resp := some .ack } ∧
      u.getMsip m i = warlBit v ∧
      (∀ m' i', ¬ (m' = m ∧ i' = i) → u.getMsip m' i' = s.getMsip m' i') :=
  ⟨_, exec_msipW_admitted v hd hi, rfl, s.getMsip_setMsip_same m i _,
    fun _ _ hreg => s.getMsip_setMsip_other _ hreg⟩

/-- Settles O28: the access is the operation's encoding, and the write is admitted. An MSIP wire is
its register's bit; an MTIP wire has the inputs it had. -/
theorem msipWriteStoresBitZero : Obligations.MsipWriteStoresBitZero := by
  intro s m d i v hd hi
  obtain ⟨u, hu, hframe, hbit, hother⟩ := exec_msipW_frame v hd hi
  refine ⟨fun hidx => ?decodes, u, hu, hframe, hbit, hbit, ?others, ?mtip⟩
  case decodes =>
    rw [ofNat_four_mul_index]
    exact encodedInstructionDecodes (.msipW m i v) (decide_eq_true hidx)
  case others => exact fun m' i' hreg => ⟨hother m' i' hreg, hother m' i' hreg⟩
  case mtip =>
    intro t j
    rw [hframe]
    rfl

/-- Settles O27: the access is the operation's encoding, and the read is admitted. -/
theorem msipReadAnswersBit : Obligations.MsipReadAnswersBit := by
  intro s m d i hd hi
  refine ⟨fun hidx => ?decodes, exec_msipR_admitted hd hi⟩
  case decodes =>
    rw [ofNat_four_mul_index]
    exact encodedInstructionDecodes (.msipR m i) (decide_eq_true hidx)

/-! ### The RESERVED words (41_mswi.md R136, 42_sswi.md R160, 20_memory.md R66) -/

/-- Settles O32: a RESERVED word's meaning in a device that exists is R64's outcome. -/
theorem reservedWordsHaveBadOutcome : Obligations.ReservedWordsHaveBadOutcome :=
  ⟨fun _ _ _ hm => ⟨_, execMswiReserved_eq (List.getElem?_eq_getElem hm), badAccess_outcome ..⟩,
    fun _ _ _ hd => ⟨_, execSswiReserved_eq (List.getElem?_eq_getElem hd), badAccess_outcome ..⟩⟩

end Sys2Proof.Machine

namespace Sys2Proof

/-- An access that decodes to SETSSIP.W is a 4-byte store at that register, the word its data. -/
theorem decode_setssipW {r : Region} {off : Offset} {op : BusOp} {d : Nat} {i : HartIndex}
    {w : Word32} (h : decode ⟨r, off, op⟩ = .ok (.setssipW d i w)) :
    r = .sswi d ∧ off = offsetI i ∧ ∃ v, op = .store 4 v ∧ w = BitVec.ofNat 32 v := by
  obtain rfl : Region.sswi d = r := decode_region h
  obtain ⟨n, v, rfl, hsize, hst⟩ := decode_store_of_dir h rfl
  simp only [decodeStore, Option.map_eq_some_iff] at hst
  obtain ⟨slot, hslot, hst⟩ := hst
  cases slot with
  | reservedWord => cases hst
  | register j =>
    cases hst
    obtain ⟨rfl, hoff, -⟩ := formatI_some hsize hslot
    exact ⟨rfl, hoff, v, rfl, rfl⟩

end Sys2Proof

namespace Sys2Proof.Machine

variable {s s' u : State} {d : Nat} {i : HartIndex} {dev : SwiDevice} {h : Nat}

/-! ### Delivering edges (42_sswi.md R157, R158) -/

theorem State.SameDevices.getInflight {t : State} (hs : s.SameDevices t) (d : Nat)
    (i : HartIndex) : t.getInflight d i = s.getInflight d i := by
  obtain ⟨-, -, -, -, hinflight, -⟩ := hs
  rw [State.getInflight, hinflight, State.getInflight]

theorem State.SameDevices.getSsip {t : State} (hs : s.SameDevices t) (h : Nat) :
    t.getSsip h = s.getSsip h := by
  obtain ⟨-, -, -, -, -, hssip⟩ := hs
  rw [State.getSsip, hssip, State.getSsip]

/-- The state after a DELIVER that takes `k` edges in flight to hart `h`. -/
def State.delivered (s : State) (d : Nat) (i : HartIndex) (h k : Nat) : State :=
  ((s.setInflight d i (s.getInflight d i - k)).setSsip h true).drawn 1

@[simp] theorem State.getInflight_delivered_same (k : Nat) :
    (s.delivered d i h k).getInflight d i = s.getInflight d i - k :=
  s.getInflight_setInflight_same d i _

theorem State.getInflight_delivered_other {d' : Nat} {i' : HartIndex} (k : Nat)
    (hne : ¬ (d' = d ∧ i' = i)) :
    (s.delivered d i h k).getInflight d' i' = s.getInflight d' i' :=
  s.getInflight_setInflight_other _ hne

@[simp] theorem State.getSsip_delivered_same (k : Nat) :
    (s.delivered d i h k).getSsip h = true :=
  State.getSsip_setSsip_same ..

theorem State.getSsip_delivered_other {h' : Nat} (k : Nat) (hne : h' ≠ h) :
    (s.delivered d i h k).getSsip h' = s.getSsip h' :=
  State.getSsip_setSsip_other _ _ hne

/-- With edges in flight to a served hart DELIVER takes between one and all of them. -/
theorem execDeliver_enabled (hd : s.cfg.sswis[d]? = some dev)
    (hh : hartOf dev.harts i.toNat = some h) (hp : 0 < s.getInflight d i) :
    ∃ k, 1 ≤ k ∧ k ≤ s.getInflight d i ∧ execDeliver d i s = s.delivered d i h k := by
  obtain ⟨hone, hall⟩ := edgesTaken_range s.freeNat hp
  refine ⟨_, hone, hall, ?_⟩
  simp only [execDeliver, hd, hh, if_neg hp.ne', State.delivered]

/-- With no edge in flight DELIVER does nothing. -/
theorem execDeliver_noEdge (hz : s.getInflight d i = 0) : execDeliver d i s = s := by
  rcases execDeliver_cases d i s with ⟨_, _, _, _, hp, _⟩ | hs
  · exact absurd hz hp.ne'
  · exact hs

/-- Settles O40: DELIVER is enabled, and what it takes lies between one and all. -/
theorem deliverSetsSsip : Obligations.DeliverSetsSsip := by
  intro s d i rest dev h ha hd hh hp
  obtain ⟨k, hone, hall, hk⟩ := execDeliver_enabled (s := { s with agenda := rest }) hd hh hp
  have hstep : step s = .next (State.delivered { s with agenda := rest } d i h k) := by
    rw [step_event ha, perform, hk]
  exact ⟨_, k, hone, hall, hstep, rfl, State.getInflight_delivered_same k,
    fun _ _ => State.getInflight_delivered_other k, State.getSsip_delivered_same k,
    fun _ => State.getSsip_delivered_other k⟩

/-- Settles O41: the event comes off the agenda, and DELIVER does nothing. -/
theorem deliverNeedsAnEdge : Obligations.DeliverNeedsAnEdge := by
  intro s d i rest ha hz
  rw [step_event ha, perform, execDeliver_noEdge (by exact hz)]

/-- Settles O43: the step is a write of that hart's bit. -/
theorem hartWritesItsSsip : Obligations.HartWritesItsSsip := by
  intro s h b rest ha
  exact ⟨_, step_event ha, rfl, State.getSsip_setSsip_same ..,
    fun _ => State.getSsip_setSsip_other _ _⟩

/-! ### SETSSIP.R and SETSSIP.W (42_sswi.md R154, R155) -/

/-- Settles O30: the access is the operation's encoding, and the read is admitted. -/
theorem setssipReadsZero : Obligations.SetssipReadsZero := by
  intro s m d i hd hi
  refine ⟨fun hidx => ?decodes, ?reads⟩
  case decodes =>
    rw [ofNat_four_mul_index]
    exact encodedInstructionDecodes (.setssipR m i) (decide_eq_true hidx)
  case reads =>
    rw [exec, execSetssipR_eq hd, indexForbidden_served hi, guarded_none]
    rfl

/-- SETSSIP.W of a served index sends an edge if bit 0 of its word is set. -/
theorem exec_setssipW_admitted (v : Word32) (hd : s.cfg.sswis[d]? = some dev)
    (hi : i.toNat < hartCount dev.harts) :
    exec (.setssipW d i v) s =
      .next ((if warlBit v then s.setInflight d i (s.getInflight d i + 1) else s).respond .ack) := by
  rw [exec, execSetssipW_eq hd, indexForbidden_served hi, guarded_none]

/-- Settles O31: the write is admitted, and bit 0 of the data decides. -/
theorem setssipWriteSendsEdge : Obligations.SetssipWriteSendsEdge := by
  intro s m d i v hd hi
  have hexec := exec_setssipW_admitted v hd hi
  refine ⟨fun hv => ?clear, fun hv => ?set⟩
  case clear =>
    have hbit : ¬ warlBit v = true := Bool.eq_false_iff.1 hv
    rw [hexec, if_neg hbit]
    rfl
  case set =>
    have hbit : warlBit v = true := hv
    rw [if_pos hbit] at hexec
    exact ⟨_, hexec, rfl, s.getInflight_setInflight_same m i (s.getInflight m i + 1),
      fun _ _ => s.getInflight_setInflight_other (s.getInflight m i + 1)⟩

/-! ### What changes a count of edges and an SSIP bit (R155, R157 to R159) -/

/-- The next event is a 4-byte store of data with bit 0 set, located at the SETSSIP register. -/
def State.SendsEdge (s : State) (d : Nat) (i : HartIndex) : Prop :=
  ∃ a rest v, s.agenda = .bus a :: rest ∧ a.op = .store 4 v ∧ v.testBit 0 = true ∧
    locate s.cfg a.addr = some (.sswi d, offsetI i)

/-- From `s` to `u` an enabled DELIVER took edges in flight to hart `h` and left its SSIP set. -/
structure State.Delivers (s u : State) (d : Nat) (i : HartIndex) (h : Nat) : Prop where
  moves  : s.Moves (.deliver d i)
  serves : ∃ dev, s.cfg.sswis[d]? = some dev ∧ hartOf dev.harts i.toNat = some h
  takes  : u.getInflight d i < s.getInflight d i
  sets   : u.getSsip h = true

/-- Taking at least one of the edges in flight, from a state with the same devices, delivers. -/
theorem State.delivers_delivered {k : Nat} (hs : s.SameDevices s') (hw : s.Moves (.deliver d i))
    (hd : s.cfg.sswis[d]? = some dev) (hh : hartOf dev.harts i.toNat = some h)
    (hk : 1 ≤ k ∧ k ≤ s.getInflight d i) : s.Delivers (s'.delivered d i h k) d i h where
  moves := hw
  serves := ⟨dev, hd, hh⟩
  takes := by rw [State.getInflight_delivered_same, hs.getInflight]; omega
  sets := State.getSsip_delivered_same k

/-- An operation that changes a count of edges is SETSSIP.W of that register with bit 0 of its word
set, and adds one. -/
theorem exec_changes_inflight {instr : Instr} (he : exec instr s = .next u)
    (hne : u.getInflight d i ≠ s.getInflight d i) :
    ∃ v, instr = .setssipW d i v ∧ warlBit v = true ∧
      u.getInflight d i = s.getInflight d i + 1 := by
  cases exec_effect he with
  | nothing _ _ hs => exact absurd (hs.getInflight d i) hne
  | mtime => exact absurd rfl hne
  | mtimecmp => exact absurd rfl hne
  | msip => exact absurd rfl hne
  | edge d' i' v _ _ _ hv =>
    by_cases hreg : d = d' ∧ i = i'
    · obtain ⟨rfl, rfl⟩ := hreg
      exact ⟨v, rfl, hv, s.getInflight_setInflight_same d i (s.getInflight d i + 1)⟩
    · exact absurd (s.getInflight_setInflight_other (s.getInflight d' i' + 1) hreg) hne

/-- A step that changes a count of edges sends one or delivers some. -/
theorem step_changes_inflight (hstep : step s = .next u)
    (hne : u.getInflight d i ≠ s.getInflight d i) :
    (s.SendsEdge d i ∧ u.getInflight d i = s.getInflight d i + 1) ∨
    ∃ h, s.Delivers u d i h := by
  have unchanged : ¬ s.SameDevices u := fun hs => hne (hs.getInflight d i)
  cases step_did hstep with
  | quiet hs => exact absurd hs.1 unchanged
  | undefined a rest why desc _ hu =>
    subst hu
    exact absurd (badAccess_sameDevices why desc { s with agenda := rest, master := a.master })
      unchanged
  | operation a rest r off instr ha hl _ hdec he =>
    obtain ⟨w, rfl, hbit, hcount⟩ := exec_changes_inflight he hne
    obtain ⟨rfl, rfl, v, hop, rfl⟩ := decode_setssipW hdec
    exact .inl ⟨⟨a, rest, v, ha, hop, (getLsbD_zero_ofNat v).symm.trans hbit, hl⟩, hcount⟩
  | tick s' c hs _ _ hu => exact absurd (hu ▸ hs.1.getInflight d i) hne
  | deliver s' d' i' dev h k hs hw hd hh hk hu =>
    obtain rfl : u = s'.delivered d' i' h k := hu
    by_cases hreg : d = d' ∧ i = i'
    · obtain ⟨rfl, rfl⟩ := hreg
      exact .inr ⟨h, State.delivers_delivered hs.1 hw hd hh hk⟩
    · exact absurd ((State.getInflight_delivered_other k hreg).trans (hs.1.getInflight d i)) hne
  | hartWrite h b rest _ hu => exact absurd (hu ▸ rfl) hne

/-- A step that changes a hart's SSIP is a write of it from outside the ACLINT or delivers edges. -/
theorem step_changes_ssip (hstep : step s = .next u) (hne : u.getSsip h ≠ s.getSsip h) :
    (∃ b rest, s.agenda = .writeSsip h b :: rest ∧ u.getSsip h = b) ∨
    ∃ d i, s.Delivers u d i h := by
  have unchanged : ¬ s.SameDevices u := fun hs => hne (hs.getSsip h)
  cases step_did hstep with
  | quiet hs => exact absurd hs.1 unchanged
  | undefined a rest why desc _ hu =>
    subst hu
    exact absurd (badAccess_sameDevices why desc { s with agenda := rest, master := a.master })
      unchanged
  | operation a rest r off instr _ _ _ _ he =>
    obtain ⟨hssip, -⟩ := deviceKindsAreIndependent _ _ _ he
    exact absurd (by rw [State.getSsip, hssip, State.getSsip]) hne
  | tick s' c hs _ _ hu => exact absurd (hu ▸ hs.1.getSsip h) hne
  | deliver s' d i dev h' k hs hw hd hh hk hu =>
    obtain rfl : u = s'.delivered d i h' k := hu
    by_cases hhart : h = h'
    · subst hhart
      exact .inr ⟨d, i, State.delivers_delivered hs.1 hw hd hh hk⟩
    · exact absurd ((State.getSsip_delivered_other k hhart).trans (hs.1.getSsip h)) hne
  | hartWrite h' b rest ha hu =>
    subst hu
    by_cases hhart : h = h'
    · subst hhart
      exact .inl ⟨b, rest, ha, State.getSsip_setSsip_same ..⟩
    · exact absurd (State.getSsip_setSsip_other _ b hhart) hne

/-- A step that makes a count of edges smaller delivers some of them. -/
theorem step_takes_edge (hstep : step s = .next u)
    (hlt : u.getInflight d i < s.getInflight d i) : ∃ h, s.Delivers u d i h := by
  rcases step_changes_inflight hstep hlt.ne with ⟨-, hcount⟩ | hdel
  · omega
  · exact hdel

/-- Settles O56: a step that changes the count sends one edge, which makes it greater, or delivers
some, which makes it smaller. -/
theorem edgesAreNeverDropped : Obligations.EdgesAreNeverDropped := by
  intro s u d i hstep
  refine ⟨fun hlt => ?grows, fun hlt => ?shrinks⟩
  case grows =>
    rcases step_changes_inflight hstep hlt.ne' with ⟨hsend, hcount⟩ | ⟨h, hdel⟩
    · exact ⟨hcount, hsend⟩
    · exact absurd hdel.takes hlt.not_gt
  case shrinks =>
    obtain ⟨h, hmoves, ⟨dev, hd, hh⟩, -, hset⟩ := step_takes_edge hstep hlt
    exact ⟨hmoves, dev, h, hd, hh, hset⟩

/-- Settles O57: a step that changes the bit is a write from outside, or a delivery to that hart. -/
theorem ssipChangesOnlyByHartOrDelivery : Obligations.SsipChangesOnlyByHartOrDelivery := by
  intro s u h hstep hne
  refine (step_changes_ssip hstep hne).imp_right fun ⟨d, i, hdel⟩ => ?_
  obtain ⟨hmoves, ⟨dev, hd, hh⟩, htakes, hset⟩ := hdel
  exact ⟨hset, d, dev, i, hd, hmoves, hh, Nat.zero_lt_of_lt htakes, htakes⟩

/-! ### Delivery is guaranteed (R157, R70) -/

/-- From every state the run comes to a state in which the devices themselves run DELIVER of a served
hart, which takes an edge if one is in flight there. -/
theorem reaches_deliver (s : State) (hd : s.cfg.sswis[d]? = some dev)
    (hh : hartOf dev.harts i.toNat = some h) :
    ∃ t u, s.Reaches t ∧ step t = .next u ∧
      (0 < t.getInflight d i → u.getInflight d i < t.getInflight d i) := by
  obtain ⟨k, hk, hagent⟩ := agentAt_deliver hd (hartOf_lt hh)
  obtain ⟨t, hr, hw, hturn⟩ := reaches_agent s hk
  have hagent' : agentAt t.cfg (t.turn % agentCount t.cfg) = some (.deliver d i) := by
    rw [hturn, hr.cfg, hagent]
  refine ⟨t, _, hr, step_owed hw, fun hp => ?_⟩
  obtain ⟨n, hone, hall, hn⟩ := execDeliver_enabled
    (s := { t with turn := t.turn + 1, patience := t.freeNat, draws := t.draws + 1 })
    (hr.cfg ▸ hd) hh hp
  rw [hagent', runAgent, hn, State.getInflight_delivered_same]
  exact Nat.sub_lt hp hone

/-- Along a run from a state with an edge in flight there still is one, or some step took one. -/
theorem State.Reaches.edge_or_taken {t : State} (hr : s.Reaches t) (hp : 0 < s.getInflight d i) :
    0 < t.getInflight d i ∨ ∃ v u, s.Reaches v ∧ step v = .next u ∧
      u.getInflight d i < v.getInflight d i := by
  induction hr using Relation.ReflTransGen.head_induction_on with
  | refl => exact .inl hp
  | @head v u hs _ ih =>
    by_cases hlt : u.getInflight d i < v.getInflight d i
    · exact .inr ⟨v, u, .refl, hs, hlt⟩
    · have hp' : 0 < u.getInflight d i := hp.trans_le (Nat.le_of_not_lt hlt)
      exact (ih hp').imp_right fun ⟨v', u', hr', htaken⟩ => ⟨v', u', hr'.head hs, htaken⟩

/-- From a state with an edge in flight to a served hart the run comes to a step that takes one. -/
theorem reaches_edge_taken (hd : s.cfg.sswis[d]? = some dev)
    (hh : hartOf dev.harts i.toNat = some h) (hp : 0 < s.getInflight d i) :
    ∃ t u, s.Reaches t ∧ step t = .next u ∧ u.getInflight d i < t.getInflight d i := by
  obtain ⟨t, u, hr, hs, htake⟩ := reaches_deliver s hd hh
  rcases hr.edge_or_taken hp with hpt | htaken
  · exact ⟨t, u, hr, hs, htake hpt⟩
  · exact htaken

/-- Settles O59: some step takes an edge, at the latest that of the DELIVER agent's turn, and every
such step sets the hart's SSIP. R40's premise is not needed. -/
theorem deliveryIsGuaranteed : Obligations.DeliveryIsGuaranteed := by
  intro s d i dev h _ hd hh hp
  obtain ⟨t, u, hr, hs, hlt⟩ := reaches_edge_taken hd hh hp
  obtain ⟨n, hn⟩ := hr.run
  obtain ⟨h', -, ⟨dev', hd', hh'⟩, -, hset⟩ := step_takes_edge hs hlt
  obtain rfl : dev = dev' := Option.some.inj (hd.symm.trans (hr.cfg ▸ hd'))
  obtain rfl : h = h' := Option.some.inj (hh.symm.trans hh')
  exact ⟨n, t, u, hn, hs, hlt, hset⟩

end Sys2Proof.Machine

namespace Sys2Proof

/-! ### Hart maps read backwards (60_exceptions.md R171, R186) -/

/-- The index found for a hart stands for that hart. -/
theorem hartOf_of_hartIndexOf {rs : List HartRun} {h i : Nat} (hi : hartIndexOf rs h = some i) :
    hartOf rs i = some h := by
  induction rs generalizing i with
  | nil => cases hi
  | cons r rs ih =>
    rw [hartIndexOf] at hi
    split at hi
    · rename_i hr
      cases hi
      rw [hartOf, if_pos (by omega), Nat.add_sub_cancel' hr.1]
    · obtain ⟨j, hj, rfl⟩ := Option.map_eq_some_iff.1 hi
      rw [hartOf, if_neg (by omega), Nat.add_sub_cancel_left, ih hj]

/-- A hart that some index stands for is found. -/
theorem hartIndexOf_isSome {rs : List HartRun} {h i : Nat} (hh : hartOf rs i = some h) :
    (hartIndexOf rs h).isSome = true := by
  induction rs generalizing i with
  | nil => cases hh
  | cons r rs ih =>
    rw [hartIndexOf]
    split
    · rfl
    · rename_i hr
      rw [hartOf] at hh
      split at hh
      · cases hh
        omega
      · rw [Option.isSome_map, ih hh]

end Sys2Proof

namespace Sys2Proof.Machine

/-- What is found for a hart, searching from place `d₀` on, is a device and an index that stands for
the hart there; an index below the device's count fits its 12 bits (R8). -/
theorem findHart_sound {devices : List (List HartRun)} {d₀ d h : Nat} {i : HartIndex}
    (hcount : ∀ rs ∈ devices, hartCount rs ≤ 4095) (hf : findHart devices d₀ h = some (d, i)) :
    ∃ k rs, d = d₀ + k ∧ devices[k]? = some rs ∧ hartOf rs i.toNat = some h := by
  induction devices generalizing d₀ with
  | nil => cases hf
  | cons rs rest ih =>
    rw [findHart] at hf
    split at hf
    · rename_i j hj
      cases hf
      have hh := hartOf_of_hartIndexOf hj
      have hfits : j % 2 ^ 12 = j :=
        Nat.mod_eq_of_lt (Nat.lt_succ_of_lt
          ((hartOf_lt hh).trans_le (hcount rs List.mem_cons_self)))
      exact ⟨0, rs, rfl, rfl, by rw [BitVec.toNat_ofNat, hfits, hh]⟩
    · obtain ⟨k, rs', rfl, hk, hh⟩ := ih (List.forall_mem_cons.1 hcount).2 hf
      exact ⟨k + 1, rs', by omega, hk, hh⟩

/-- A hart that some device serves is found. -/
theorem findHart_isSome {devices : List (List HartRun)} {d k h i : Nat} {rs : List HartRun}
    (hd : devices[k]? = some rs) (hh : hartOf rs i = some h) :
    (findHart devices d h).isSome = true := by
  induction devices generalizing d k with
  | nil => cases hd
  | cons rs' rest ih =>
    rw [findHart]
    split
    · rfl
    · rename_i hnone
      cases k with
      | zero =>
        cases hd
        simpa [hnone] using hartIndexOf_isSome hh
      | succ k => exact ih hd

/-- Where the hart maps are disjoint, what serves a hart is unique, so it is what is found. -/
theorem lookupInvertsMaps_of_disjoint {devices : List (List HartRun)}
    (hd : DisjointHartMaps devices) (hcount : ∀ rs ∈ devices, hartCount rs ≤ 4095) :
    LookupInvertsMaps devices := by
  have sound : ∀ {h d : Nat} {i : HartIndex}, findHart devices 0 h = some (d, i) →
      ∃ rs, devices[d]? = some rs ∧ hartOf rs i.toNat = some h := by
    intro h d i hf
    obtain ⟨k, rs, rfl, hk, hh⟩ := findHart_sound hcount hf
    exact ⟨rs, by rwa [Nat.zero_add], hh⟩
  refine fun h d i => ⟨sound, fun ⟨rs, hrs, hh⟩ => ?_⟩
  obtain ⟨⟨d', i'⟩, hf⟩ := Option.isSome_iff_exists.1 (findHart_isSome (d := 0) hrs hh)
  obtain ⟨rs', hrs', hh'⟩ := sound hf
  obtain ⟨rfl, hi⟩ := hd d' d rs' rs i'.toNat i.toNat h hrs' hrs hh' hh
  rw [hf, BitVec.eq_of_toNat_eq hi]

/-- Settles O14: each kind's hart maps are disjoint, and their counts fit an index's 12 bits. -/
theorem hartLookupInvertsHartMaps : Obligations.HartLookupInvertsHartMaps := by
  intro cfg hwf
  obtain ⟨hmt, hms, hss⟩ := hartMapsAreDisjoint cfg hwf
  obtain ⟨-, ⟨cmt, cms, css⟩, -⟩ := Config.wf_iff.1 hwf
  exact ⟨lookupInvertsMaps_of_disjoint hmt (List.forall_mem_map.2 cmt),
    lookupInvertsMaps_of_disjoint hms (List.forall_mem_map.2 cms),
    lookupInvertsMaps_of_disjoint hss (List.forall_mem_map.2 css)⟩

/-! ### What a hart sees (R172, R175, R176) -/

section

variable {α : Type} {devs : List α} {harts : α → List HartRun} {h : Nat}
  (hl : LookupInvertsMaps (devs.map harts))

include hl

/-- The device and index that serve a hart are those found for it. -/
theorem LookupInvertsMaps.findHart_served {d : Nat} {dev : α} {i : HartIndex}
    (hd : devs[d]? = some dev) (hh : hartOf (harts dev) i.toNat = some h) :
    findHart (devs.map harts) 0 h = some (d, i) :=
  (hl h d i).2 ⟨harts dev, by rw [List.getElem?_map, hd, Option.map_some], hh⟩

/-- For a hart that no device serves, nothing is found. -/
theorem LookupInvertsMaps.findHart_unserved
    (hn : ∀ (d : Nat) (dev : α) (i : HartIndex), devs[d]? = some dev →
      hartOf (harts dev) i.toNat ≠ some h) :
    findHart (devs.map harts) 0 h = none := by
  refine Option.eq_none_iff_forall_ne_some.2 fun ⟨d, i⟩ hf => ?_
  obtain ⟨rs, hrs, hh⟩ := (hl h d i).1 hf
  rw [List.getElem?_map] at hrs
  obtain ⟨dev, hd, rfl⟩ := Option.map_eq_some_iff.1 hrs
  exact hn d dev i hd hh

end

/-- Settles O42: the lookup finds the wires of the hart, and the look records them. -/
theorem hartSeesItsWires : Obligations.HartSeesItsWires := by
  intro s h rest hwf ha
  obtain ⟨lmt, lms, -⟩ := hartLookupInvertsHartMaps s.cfg hwf
  refine ⟨_, ⟨h, s.mtipOfHart h (Config.freeNat s.draws), s.msipOfHart h, s.getSsip h⟩,
    step_event ha, rfl, rfl, ?mtip, ?noMtip, ?msip, ?noMsip, rfl, rfl⟩
  case mtip =>
    intro t d i hd hh
    have hseen : s.mtipOfHart h (Config.freeNat s.draws) =
        some ((s.mtipWire t i).getD (freeBit (Config.freeNat s.draws))) := by
      rw [State.mtipOfHart, lmt.findHart_served hd hh, Option.map_some]
    refine ⟨?_, fun b hb => ?_, fun hw => ?_⟩
    · simp [hseen]
    · simp [hseen, hb]
    · simp [hseen, State.mtipWire_unknown hw, freeBit]
  case noMtip =>
    intro hn
    simp only [State.mtipOfHart, lmt.findHart_unserved hn, Option.map_none]
  case msip =>
    intro m d i hd hh
    simp only [State.msipOfHart, lms.findHart_served hd hh, Option.map_some]
  case noMsip =>
    intro hn
    simp only [State.msipOfHart, lms.findHart_unserved hn, Option.map_none]

/-! ### Who accesses a device (R182, R183, R187) -/

/-- When the next event is an access the platform keeps from the device, the step answers so. -/
theorem step_blocked {s : State} {a : BusAccess} {rest : List Event} {r : Region} {off : Offset}
    (ha : s.agenda = .bus a :: rest) (hl : locate s.cfg a.addr = some (r, off))
    (hm : mayAccess s.cfg a.master r.device = false) :
    step s = .next { s with agenda := rest, master := a.master, resp := some .blocked } := by
  simp only [step_event ha, perform, performBus, hl, hm, Bool.false_eq_true, if_false,
    State.respond]

/-- Settles O35: the access is located, and its master is denied. -/
theorem blockedAccessNeverReachesDevice : Obligations.BlockedAccessNeverReachesDevice :=
  fun _ _ _ _ _ => step_blocked

/-- The states differ at most in the master noted and in the refusal mark, which names one. -/
def State.SameUpToMaster (s t : State) : Prop :=
  t = { s with master := t.master, refusalMark := t.refusalMark }

/-- The outcomes are of one kind, and two next states differ at most in the master. -/
inductive SameOutcome : Out → Out → Prop where
  | next {u u' : State} (h : u.SameUpToMaster u') : SameOutcome (.next u) (.next u')
  | fault (r : Fault) : SameOutcome (.fault r) (.fault r)

variable {s s' : State}

/-- R64's outcome knows the master only in the refusal mark. -/
theorem badAccess_sameUpToMaster (why : BadReason) (d : Descriptor) (hs : s.SameUpToMaster s') :
    (badAccess why d s).SameUpToMaster (badAccess why d s') := by
  rw [hs]
  cases hc : s.cfg.badAccess with
  | refuse => simp only [badAccess, hc]; rfl
  | fault => simp only [badAccess, hc]; rfl
  | ignore =>
    simp only [badAccess, hc, ignoreAccess]
    split <;> rfl

theorem guarded_sameOutcome (f : Option BadReason) (i : Instr) {e e' : State}
    (hs : s.SameUpToMaster s') (he : e.SameUpToMaster e') :
    SameOutcome (guarded f i s e) (guarded f i s' e') := by
  cases f with
  | none => exact .next he
  | some why => exact .next (badAccess_sameUpToMaster why _ hs)

theorem readCompare_sameUpToMaster (t : Nat) (i : HartIndex) (l : Lane)
    (hs : s.SameUpToMaster s') :
    (readCompare t i l s).SameUpToMaster (readCompare t i l s') := by
  rw [hs]
  cases hv : (s.getCompare t i).value with
  | some v => rw [readCompare_known l hv, readCompare_known l (by exact hv)]; rfl
  | none => rw [readCompare_unknown l hv, readCompare_unknown l (by exact hv)]; rfl

/-- No operation knows its master: the device it asks for, its guard and its effect are the same. -/
theorem exec_sameOutcome (i : Instr) (hs : s.SameUpToMaster s') :
    SameOutcome (exec i s) (exec i s') := by
  have hs' := hs
  rw [hs] at hs' ⊢
  cases i with
  | mtimeR t l =>
    simp only [exec, execMtimeR]
    split
    · exact .fault _
    · exact guarded_sameOutcome _ _ hs' rfl
  | mtimeW t w =>
    simp only [exec, execMtimeW]
    split
    · exact .fault _
    · exact guarded_sameOutcome _ _ hs' rfl
  | mtimecmpR t j l =>
    simp only [exec, execMtimecmpR]
    split
    · exact .fault _
    · exact guarded_sameOutcome _ _ hs' (readCompare_sameUpToMaster t j l hs')
  | mtimecmpW t j w =>
    simp only [exec, execMtimecmpW]
    split
    · exact .fault _
    · exact guarded_sameOutcome _ _ hs' rfl
  | mswiReserved m a =>
    simp only [exec, execMswiReserved]
    split
    · exact .fault _
    · exact .next (badAccess_sameUpToMaster _ _ hs')
  | msipR m j =>
    simp only [exec, execMsipR]
    split
    · exact .fault _
    · exact guarded_sameOutcome _ _ hs' rfl
  | msipW m j v =>
    simp only [exec, execMsipW]
    split
    · exact .fault _
    · exact guarded_sameOutcome _ _ hs' rfl
  | sswiReserved d a =>
    simp only [exec, execSswiReserved]
    split
    · exact .fault _
    · exact .next (badAccess_sameUpToMaster _ _ hs')
  | setssipR d j =>
    simp only [exec, execSetssipR]
    split
    · exact .fault _
    · exact guarded_sameOutcome _ _ hs' rfl
  | setssipW d j v =>
    simp only [exec, execSetssipW]
    split
    · exact .fault _
    · exact guarded_sameOutcome _ _ hs' (by split <;> rfl)

theorem performDescriptor_sameOutcome (d : Descriptor) (hs : s.SameUpToMaster s') :
    SameOutcome (performDescriptor d s) (performDescriptor d s') := by
  cases hd : decode d with
  | ok i =>
    rw [performDescriptor_ok hd, performDescriptor_ok hd]
    exact exec_sameOutcome i hs
  | error why =>
    rw [performDescriptor_error hd, performDescriptor_error hd]
    exact .next (badAccess_sameUpToMaster why d hs)

/-- The same access of two masters that the platform lets through has the same outcome. -/
theorem performBus_sameOutcome {a : BusAccess} {master' : Nat}
    (hm : ∀ r off, locate s.cfg a.addr = some (r, off) →
      mayAccess s.cfg a.master r.device = true ∧ mayAccess s.cfg master' r.device = true) :
    SameOutcome (performBus a s) (performBus { a with master := master' } s) := by
  cases hl : locate s.cfg a.addr with
  | none =>
    simp only [performBus, hl]
    exact .next rfl
  | some p =>
    obtain ⟨hm₁, hm₂⟩ := hm p.1 p.2 hl
    simp only [performBus, hl, hm₁, hm₂, if_true]
    exact performDescriptor_sameOutcome _ rfl

/-- Settles O46: the outcomes agree up to the master, and so do the fields named. -/
theorem masterDoesNotMatter : Obligations.MasterDoesNotMatter := by
  intro s u a master' hm hu
  have hsame := performBus_sameOutcome hm
  rw [hu] at hsame
  generalize performBus { a with master := master' } s = o at hsame ⊢
  cases hsame with
  | next h =>
    refine ⟨_, rfl, ?_⟩
    rw [h]
    exact ⟨State.SameDevices.rfl, rfl, rfl, rfl⟩

end Sys2Proof.Machine

namespace Sys2Proof.Machine

/-! ### Reset meets the invariant (10_state.md R30, R31, R32, R200) -/

/-- A bank with nothing stored is in the canonical form. -/
theorem Bank.wf_nil {α : Type} (dflt : α) : Bank.wf dflt [] :=
  ⟨List.Pairwise.nil, List.forall_mem_nil _⟩

/-- Reset stores nothing in any bank, so each part of the invariant speaks of no entry. -/
theorem State.resetOf_inv (cfg : Config) : (State.resetOf cfg).Inv where
  canonical := ⟨Bank.wf_nil _, Bank.wf_nil _, Bank.wf_nil _, Bank.wf_nil _, Bank.wf_nil _⟩
  real := ⟨List.forall_mem_nil _, List.forall_mem_nil _, List.forall_mem_nil _,
    List.forall_mem_nil _⟩
  whole _ := List.forall_mem_nil _

/-- Settles O47: the machine's reset is that of the standard configuration. -/
theorem resetMeetsInvariant : Obligations.ResetMeetsInvariant :=
  ⟨State.resetOf_inv, State.resetOf_inv Config.standard⟩

end Sys2Proof.Machine
